-- ==== Sys2Proof/Word.lean ====
section
/-!
DEFINITION. The word types of the CHIP-8 engine (spec/00_scope.md R8, R10; spec/30_encoding.md R71).
All values are unsigned; bit 0 is the least significant bit.
-/

namespace Sys2Proof

/-- An 8-bit value: a general register, a timer, a memory byte, the immediate `NN` (R8 `REG_W`, R71). -/
abbrev Byte := BitVec 8

/-- A 16-bit value: `I`, `pc`, a stack entry, an instruction word (R8 `I_W`, `PC_W`, `STACK_W`; R70). -/
abbrev Word := BitVec 16

/-- A 4-bit field of an instruction word (R71). -/
abbrev Nibble := BitVec 4

/-- The 12-bit immediate `NNN` (R71). -/
abbrev Imm12 := BitVec 12

/-- The index of a general register, 0 to 15, every value legal (R20, R72). -/
abbrev Reg := Fin 16

end Sys2Proof
end

