-- ==== Sys2Proof/Config.lean ====
section
/-!
DEFINITION. The open parameters of spec/00_scope.md R9, as the fields of one configuration, and the free value of
the model: the random source (spec/45_random.md R170, R171).
-/

namespace Sys2Proof

/-- `ADDR_POLICY` (R9, R52): what an access at an effective address of 4096 or more does. -/
inductive AddrPolicy where
  /-- It raises `AddressOutOfRange`. -/
  | fault
  /-- It goes to the address modulo 4096. -/
  | wrap
  deriving DecidableEq, Repr

/-- `DRAW_EDGE` (R9, R151): what becomes of a sprite pixel past the right or bottom edge. -/
inductive DrawEdge where
  /-- Its coordinates are taken modulo 64 and 32. -/
  | wrap
  /-- It is dropped. -/
  | clip
  deriving DecidableEq, Repr

/-- Glyphs 0 to 3 of R33. -/
def glyphs0to3 : List Byte :=
  [0xF0, 0x90, 0x90, 0x90, 0xF0] ++ [0x20, 0x60, 0x20, 0x20, 0x70] ++
  [0xF0, 0x10, 0xF0, 0x80, 0xF0] ++ [0xF0, 0x10, 0xF0, 0x10, 0xF0]

/-- Glyphs 4 to 7 of R33. -/
def glyphs4to7 : List Byte :=
  [0x90, 0x90, 0xF0, 0x10, 0x10] ++ [0xF0, 0x80, 0xF0, 0x10, 0xF0] ++
  [0xF0, 0x80, 0xF0, 0x90, 0xF0] ++ [0xF0, 0x10, 0x20, 0x40, 0x40]

/-- Glyphs 8 to B of R33. -/
def glyphs8toB : List Byte :=
  [0xF0, 0x90, 0xF0, 0x90, 0xF0] ++ [0xF0, 0x90, 0xF0, 0x10, 0xF0] ++
  [0xF0, 0x90, 0xF0, 0x90, 0x90] ++ [0xE0, 0x90, 0xE0, 0x90, 0xE0]

/-- Glyphs C to F of R33. -/
def glyphsCtoF : List Byte :=
  [0xF0, 0x80, 0x80, 0x80, 0xF0] ++ [0xE0, 0x90, 0x90, 0x90, 0xE0] ++
  [0xF0, 0x80, 0xF0, 0x80, 0xF0] ++ [0xF0, 0x80, 0xF0, 0x80, 0x80]

/-- The font table of R33, the default of the parameter `FONT` (R9). PRESUMED: the spec itself takes these bytes
from general knowledge (its decision D19); log 13, unsafe. -/
def conventionalFont : Vector Byte 80 :=
  ⟨(glyphs0to3 ++ glyphs4to7 ++ glyphs8toB ++ glyphsCtoF).toArray, rfl⟩

/-- The open parameters of R9, each with the default the spec decided. The configuration is fixed for one machine;
the model carries it in the state so that one machine description covers every legal value (log 1, safe). -/
structure Config where
  /-- `ADDR_POLICY` (R52). -/
  addrPolicy : AddrPolicy := .fault
  /-- `DRAW_EDGE` (R151). -/
  drawEdge : DrawEdge := .wrap
  /-- `ADMIT_ADD_IMM` (R121). -/
  admitAddImm : Bool := true
  /-- `FONT` (R33), read by construction only. -/
  font : Vector Byte 80 := conventionalFont
  deriving DecidableEq, Repr

/-- Every open parameter at its default (R9). -/
def Config.defaults : Config := {}

/-- FREE VALUE (log 7, safe): the byte the random source answers to its `k`-th request (R170, R171). It has no body:
nothing can be proved of it, so a theorem holds for every sequence of draws. -/
opaque Config.rnd (k : Nat) : Byte

end Sys2Proof
end

