-- ==== Sys2Proof/Machine/State.lean ====
section
/-!
DEFINITION. The state of the engine (spec/10_state.md R31) as plain data, the fatal conditions (spec/60_exceptions.md
R180) and the state after reset (spec/10_state.md R32, spec/70_reset_and_hazards.md R210).
-/

namespace Sys2Proof.Machine

/-- The fatal conditions a step can raise, with the information each carries to the host (R180). The codes are
`Cause.code`. Condition 4, `ProgramTooLarge`, is construction's and is `Fault.programTooLarge`, its code
`Fault.code`. -/
inductive Cause where
  /-- Code 1: the fetched word matches no row of the opcode map (R181). -/
  | invalidOpcode (w : Word)
  /-- Code 2: `CALL` with `sp = 16` (R182). -/
  | stackOverflow
  /-- Code 3: `RET` with `sp = 0` (R183). -/
  | stackUnderflow
  /-- Code 5: an effective address of 4096 or more with `ADDR_POLICY = fault` (R185). -/
  | addressOutOfRange (ea : Nat)
  /-- Code 6: `SKP` or `SKNP` with `V[X] > 15` (R186). -/
  | keyIndexOutOfRange (k : Byte)
  deriving DecidableEq, Repr

/-- The run status (R29). The cause keeps the information `raise` reports, so that the status is the report the host
reads as the result of `step` (R34; log 5). -/
inductive Status where
  /-- The engine runs. -/
  | running
  /-- A fatal condition was raised; only a new construction leaves this status (R192, R193). -/
  | faulted (c : Cause)
  deriving DecidableEq, Repr

/-- The framebuffer: 64 columns of 32 cells, `true` is on; `fb[x][y]` as in R26. -/
abbrev Framebuffer := Vector (Vector Bool 32) 64

/-- Memory as the list of bytes that differ from what an unlisted address reads as, by rising address (log 8). -/
abbrev Memory := List Host.Cell

/-- The complete state of the engine (R31), the configuration it was built with (log 1) and the count of random
bytes drawn (log 7). -/
structure State where
  /-- `V[0]` to `V[15]`; `V[15]` is `VF` (R20, R21). -/
  v : Vector Byte 16
  /-- The index register `I` (R22). -/
  idx : Word
  /-- The program counter `pc` (R23). -/
  pc : Word
  /-- The stack depth `sp`, 0 to 16 (R24). -/
  sp : Fin 17
  /-- The stack entries (R24). -/
  stack : Vector Word 16
  /-- The delay timer `DT` (R27). -/
  dt : Byte
  /-- The sound timer `ST` (R27). -/
  st : Byte
  /-- The keypad flags, `true` is pressed; only the host writes them (R25). -/
  keys : Vector Bool 16
  /-- The framebuffer (R26). -/
  fb : Framebuffer
  /-- The memory (R28). -/
  mem : Memory
  /-- The run status (R29). -/
  status : Status
  /-- The open parameters of R9; no step changes them (log 1). -/
  cfg : Config
  /-- How many bytes the random source has answered (R170; log 7): the model's own field. -/
  draws : Nat
  deriving DecidableEq, Repr

/-- Why the machine is not there to step. No step of the engine ends so: a fatal condition of a step is a next state
with `status = faulted` (R190, log 4). -/
inductive Fault where
  /-- `ProgramTooLarge` (code 4, R184): raised by construction from an image longer than 3584 bytes, never by a step.
  Safe: no engine exists, so nothing is claimed of one. -/
  | programTooLarge (length : Nat)
  deriving DecidableEq, Repr

/-- Why the model gives an instruction no meaning. -/
inductive Refusal where
  /-- Raised by an arm of `exec` for an instruction that has no meaning yet; no arm answers so. Safe. -/
  | notModelled (mnemonic : String)
  deriving DecidableEq, Repr

/-- The blank framebuffer (R32, R100). -/
def blankFramebuffer : Framebuffer := Vector.replicate 64 (Vector.replicate 32 false)

/-- The engine right after construction from the empty image with every parameter at its default (R32, R210). The
register values are the spec's own decision D15 (log 3, unsafe); how a program comes to run is log 2. -/
def State.reset : State where
  v := Vector.replicate 16 0x00
  idx := 0x0000
  pc := 0x0200
  sp := 0
  stack := Vector.replicate 16 0x0000
  dt := 0x00
  st := 0x00
  keys := Vector.replicate 16 false
  fb := blankFramebuffer
  mem := []
  status := .running
  cfg := Config.defaults
  draws := 0

end Sys2Proof.Machine
end

