-- ==== Sys2Proof/Machine/Memory.lean ====
section
/-!
DEFINITION. The memory of 4096 bytes (spec/20_memory.md R50 to R53): one canonical list, byte reads and writes, and
effective addresses under `ADDR_POLICY`.
-/

namespace Sys2Proof.Machine

/-- What an address nothing is listed for reads as: the contents construction leaves with the default font, that is
the font table at 0x050 to 0x09F and zero elsewhere (R32, R51; log 8). -/
def Mem.unlisted (a : Nat) : Byte :=
  if h : 0x050 ≤ a ∧ a < 0x0A0 then conventionalFont[a - 0x050]'(by omega) else 0x00

/-- The byte at a physical address (R50). -/
def Mem.read : Memory → Nat → Byte
  | [], a => Mem.unlisted a
  | (k, b) :: m, a => if a = k then b else Mem.read m a

/-- The list without any entry for an address. -/
def Mem.erase (m : Memory) (a : Nat) : Memory := m.filter (fun c => c.1 ≠ a)

/-- An entry put at its place by rising address. -/
def Mem.insert (a : Nat) (b : Byte) : Memory → Memory
  | [] => [(a, b)]
  | (k, c) :: m => if a < k then (a, b) :: (k, c) :: m else (k, c) :: Mem.insert a b m

/-- The memory after storing one byte at a physical address (R50): a byte equal to what the unlisted address reads
as leaves no entry, so that equal memories are equal lists. -/
def Mem.write (m : Memory) (a : Nat) (b : Byte) : Memory :=
  if b = Mem.unlisted a then Mem.erase m a else Mem.insert a b (Mem.erase m a)

/-- Stores performed one after another, in the order of the list (R56). -/
def Mem.writeAll (m : Memory) : List (Nat × Byte) → Memory
  | [] => m
  | (a, b) :: rest => Mem.writeAll (Mem.write m a b) rest

/-- Consecutive bytes stored from a physical address on (the copies of R210). -/
def Mem.writeFrom (m : Memory) (a : Nat) : List Byte → Memory
  | [] => m
  | b :: rest => Mem.writeFrom (Mem.write m a b) (a + 1) rest

/-- The canonical form from a lowest address on: addresses strictly rising and below 4096, no entry equal to what an
unlisted address reads as. -/
def Mem.wfFrom : Nat → Memory → Bool
  | _, [] => true
  | lo, (k, b) :: m =>
    decide (lo ≤ k) && decide (k < 4096) && decide (b ≠ Mem.unlisted k) && Mem.wfFrom (k + 1) m

/-- The memory is in canonical form. -/
def Mem.wf (m : Memory) : Bool := Mem.wfFrom 0 m

/-- The physical address of an effective address, or the fatal condition (R52). -/
def resolve (p : AddrPolicy) (ea : Nat) : Except Cause Nat :=
  if ea < 4096 then .ok ea
  else match p with
    | .fault => .error (.addressOutOfRange ea)
    | .wrap => .ok (ea % 4096)

/-- The physical addresses of `n` consecutive effective addresses, checked in ascending order before anything is
accessed: the lowest one out of range is the one reported (R53). -/
def resolveFrom (p : AddrPolicy) (ea : Nat) : Nat → Except Cause (List Nat)
  | 0 => .ok []
  | n + 1 =>
    match resolve p ea with
    | .error c => .error c
    | .ok a =>
      match resolveFrom p (ea + 1) n with
      | .error c => .error c
      | .ok as => .ok (a :: as)

end Sys2Proof.Machine
end

