-- ==== Sys2Proof/Machine/Ops.lean ====
section
/-!
DEFINITION. The named operations over the state that the instruction meanings share: registers, the program counter,
the stack, memory through `I`, the timer tick, and taking a fatal condition, with the frame of one instruction
(spec/30_encoding.md R75, R76, R78; spec/60_exceptions.md R190).
-/

namespace Sys2Proof.Machine

/-! ### Registers -/

/-- The index of `VF` (R21). -/
def vf : Reg := 15

/-- `V[x]` read (R20). -/
def State.reg (s : State) (x : Reg) : Byte := s.v[x]

/-- `V[x] <- b` (R20). -/
def State.setReg (s : State) (x : Reg) (b : Byte) : State := { s with v := s.v.set x b }

/-- `I <- w` (R22). -/
def State.setIdx (s : State) (w : Word) : State := { s with idx := w }

/-- `pc <- w` (R23). -/
def State.setPc (s : State) (w : Word) : State := { s with pc := w }

/-- `DT <- b` (R27). -/
def State.setDt (s : State) (b : Byte) : State := { s with dt := b }

/-- `ST <- b` (R27). -/
def State.setSt (s : State) (b : Byte) : State := { s with st := b }

/-- The framebuffer replaced (R26). -/
def State.setFb (s : State) (f : Framebuffer) : State := { s with fb := f }

/-- The memory replaced (R28). -/
def State.setMem (s : State) (m : Memory) : State := { s with mem := m }

/-! ### The program counter -/

/-- The advance right after the fetch: `pc <- (pc + 2) mod 65536` (R75). -/
def State.advance (s : State) : State := s.setPc (s.pc + 2)

/-- A skip: `pc` moves on by a further 2 when the condition holds (R104). -/
def State.skipIf (s : State) (c : Bool) : State := if c then s.setPc (s.pc + 2) else s

/-! ### The stack (R24) -/

/-- Push: write `stack[sp]`, then increment `sp`; `StackOverflow` at `sp = 16` (R103, R182). -/
def State.push (s : State) (w : Word) : Except Cause State :=
  if h : s.sp.val < 16 then
    .ok { s with stack := s.stack.set s.sp.val w, sp := ⟨s.sp.val + 1, by omega⟩ }
  else .error .stackOverflow

/-- Pop into `pc`: decrement `sp`, then read `stack[sp]`, which keeps its contents; `StackUnderflow` at `sp = 0`
(R101, R183). -/
def State.popPc (s : State) : Except Cause State :=
  if h : s.sp.val = 0 then .error .stackUnderflow
  else .ok { s with pc := s.stack[s.sp.val - 1]'(by omega), sp := ⟨s.sp.val - 1, by omega⟩ }

/-! ### Memory at `I` (R146) -/

/-- The physical addresses of the `n` bytes from `I` on, all checked first (R53, R146). -/
def State.dataAddrs (s : State) (n : Nat) : Except Cause (List Nat) :=
  resolveFrom s.cfg.addrPolicy s.idx.toNat n

/-- The bytes read at `I`, `I + 1`, ... in ascending order (R56). -/
def State.loadBytes (s : State) (n : Nat) : Except Cause (List Byte) :=
  match s.dataAddrs n with
  | .error c => .error c
  | .ok as => .ok (as.map (Mem.read s.mem))

/-- The bytes stored at `I`, `I + 1`, ... in ascending order (R56); `I` is unchanged. -/
def State.storeBytes (s : State) (bs : List Byte) : Except Cause State :=
  match s.dataAddrs bs.length with
  | .error c => .error c
  | .ok as => .ok (s.setMem (Mem.writeAll s.mem (as.zip bs)))

/-! ### The random source -/

/-- One byte drawn from the random source and the state with the draw consumed (R170; log 7). -/
def State.draw (s : State) : Byte × State := (Config.rnd s.draws, { s with draws := s.draws + 1 })

/-! ### The frame of one instruction -/

/-- One timer counted down: by 1 while positive, never below zero (R78). -/
def countDown (b : Byte) : Byte := if b = 0 then 0 else b - 1

/-- The timer tick (R78). -/
def State.tick (s : State) : State := { s with dt := countDown s.dt, st := countDown s.st }

/-- Taking a fatal condition: the state before the step with the status set, nothing else written, no tick (R190). -/
def State.takeFault (s : State) (c : Cause) : State := { s with status := .faulted c }

/-- The end of an instruction begun in `s`: the handler's state after the tick, or the fatal condition taken with
every write of the step discarded (R76, R78, R190). -/
def finish (s : State) : Except Cause State → Host.Outcome State Fault Refusal
  | .ok t => .next t.tick
  | .error c => .next (s.takeFault c)

end Sys2Proof.Machine
end

