-- ==== Sys2Proof/Machine/Flags.lean ====
section
/-!
DEFINITION. Every flag computation of the spec: the values `VF` receives (spec/10_state.md R21) and the order of the
flag write and the result write (spec/41_arith_logic.md R126 to R130, R132).
-/

namespace Sys2Proof.Machine

/-- A flag as the whole byte written to `VF`: 0x00 or 0x01 (R21). -/
def flagByte (b : Bool) : Byte := if b then 0x01 else 0x00

/-- Carry out of an addition: the unsigned sum is 256 or more (R126). -/
def carryOut (a b : Byte) : Bool := decide (256 ≤ a.toNat + b.toNat)

/-- No borrow: the minuend `a` is at least the subtrahend `b` (R127, R129). -/
def notBorrow (a b : Byte) : Bool := decide (b.toNat ≤ a.toNat)

/-- The bit a right shift moves out: bit 0 (R128). -/
def shiftedOutRight (a : Byte) : Bool := a.getLsbD 0

/-- The bit a left shift moves out: bit 7 (R130). -/
def shiftedOutLeft (a : Byte) : Bool := a.getLsbD 7

/-- `VF` written with a flag (R21). -/
def State.setFlag (s : State) (b : Bool) : State := s.setReg vf (flagByte b)

/-- The write order of `ADD`, `SUB`, `SUBN`: the flag first, then the result, so that with `X = 15` the result
survives (R126, R132; log 15). -/
def State.flagThenResult (s : State) (x : Reg) (flag : Bool) (result : Byte) : State :=
  (s.setFlag flag).setReg x result

/-- The write order of `SHR`, `SHL`: the flag first, then the shift of `V[x]` read again (R128, R130, R132;
log 15). -/
def State.flagThenShift (s : State) (x : Reg) (flag : Bool) (shift : Byte → Byte) : State :=
  (s.setFlag flag).setReg x (shift ((s.setFlag flag).reg x))

end Sys2Proof.Machine
end

