-- ==== Sys2Proof/Machine/Operands.lean ====
section
/-!
DEFINITION. Every operand form of the spec: immediates (spec/30_encoding.md R72), decimal digits and glyph addresses
(spec/42_memory_index.md R142, R143), register groups (R144, R145), keys (spec/44_input.md R160 to R162) and sprite
pixels (spec/43_draw.md R150, R151, R153).
-/

namespace Sys2Proof.Machine

/-- `zext_16(NNN)` (R72). -/
def immAddr (nnn : Imm12) : Word := nnn.setWidth 16

/-- `zext_16(V)` of a register's byte (R108, R141, R142). -/
def zextByte (b : Byte) : Word := b.setWidth 16

/-- The address of a digit's font glyph, by the formula over the whole 8-bit value: `0x050 + 5 * v` (R142). -/
def glyphAddr (v : Byte) : Word := 0x0050 + 5 * zextByte v

/-- The decimal digits of a byte, hundreds first, one digit a byte (R143). -/
def bcdDigits (v : Byte) : List Byte :=
  [BitVec.ofNat 8 (v.toNat / 100), BitVec.ofNat 8 (v.toNat / 10 % 10), BitVec.ofNat 8 (v.toNat % 10)]

/-- The bytes of `V[0]` to `V[x]`, in ascending order (R144). -/
def State.regsTo (s : State) (x : Reg) : List Byte := s.v.toList.take (x.val + 1)

/-- Registers loaded in ascending order from index `i` on (R145). -/
def loadRegsFrom (v : Vector Byte 16) (i : Nat) : List Byte → Vector Byte 16
  | [] => v
  | b :: rest => loadRegsFrom (if h : i < 16 then v.set i b else v) (i + 1) rest

/-- The key a register's value names, or `KeyIndexOutOfRange` above 15 (R160, R186). -/
def keyOf (b : Byte) : Except Cause (Fin 16) :=
  if h : b.toNat < 16 then .ok ⟨b.toNat, h⟩ else .error (.keyIndexOutOfRange b)

/-- The lowest-numbered pressed key from key `k` on, `n` keys scanned in ascending order (R162). -/
def lowestKeyFrom (keys : Vector Bool 16) (k : Nat) : Nat → Option Nat
  | 0 => none
  | n + 1 => if keys[k]? = some true then some k else lowestKeyFrom keys (k + 1) n

/-- The lowest-numbered pressed key, if any: flags 0 to 15 scanned in ascending order (R162). -/
def lowestKey (keys : Vector Bool 16) : Option Nat := lowestKeyFrom keys 0 16

/-! ### Sprites -/

/-- The start column `V[X] mod 64` (R150). -/
def startColumn (b : Byte) : Nat := b.toNat % 64

/-- The start row `V[Y] mod 32` (R150). -/
def startRow (b : Byte) : Nat := b.toNat % 32

/-- The bit of a sprite byte in column `c`, 0 to 7: bit 7 is the leftmost (R153). -/
def spriteBit (b : Byte) (c : Nat) : Bool := b.getLsbD (7 - c)

/-- Where a sprite pixel lands: on a cell, or nowhere when it is dropped at the edge (R151). -/
def place (edge : DrawEdge) (xx yy : Nat) : Option (Fin 64 × Fin 32) :=
  match edge with
  | .wrap => some (⟨xx % 64, Nat.mod_lt _ (by decide)⟩, ⟨yy % 32, Nat.mod_lt _ (by decide)⟩)
  | .clip => if h : xx < 64 ∧ yy < 32 then some (⟨xx, h.1⟩, ⟨yy, h.2⟩) else none

end Sys2Proof.Machine
end

