-- ==== Sys2Proof/Machine/Arith.lean ====
section
/-!
DEFINITION. The arithmetic and logic instructions (spec/41_arith_logic.md R120 to R130). The handler works on the
advanced state (R75); both operands are read before either write (R126, R127, R129).
-/

namespace Sys2Proof.Machine

/-- `LD Vx, NN` (R120). -/
def execLdImm (x : Reg) (nn : Byte) (s : State) : Host.Outcome State Fault Refusal :=
  finish s (.ok (s.advance.setReg x nn))

/-- `ADD Vx, NN`: 8-bit sum, no flag (R121). -/
def execAddImm (x : Reg) (nn : Byte) (s : State) : Host.Outcome State Fault Refusal :=
  finish s (.ok (s.advance.setReg x (s.reg x + nn)))

/-- `LD Vx, Vy` (R122). -/
def execLdReg (x y : Reg) (s : State) : Host.Outcome State Fault Refusal :=
  finish s (.ok (s.advance.setReg x (s.reg y)))

/-- `OR Vx, Vy` (R123). -/
def execOrReg (x y : Reg) (s : State) : Host.Outcome State Fault Refusal :=
  finish s (.ok (s.advance.setReg x (s.reg x ||| s.reg y)))

/-- `AND Vx, Vy` (R124). -/
def execAndReg (x y : Reg) (s : State) : Host.Outcome State Fault Refusal :=
  finish s (.ok (s.advance.setReg x (s.reg x &&& s.reg y)))

/-- `XOR Vx, Vy` (R125). -/
def execXorReg (x y : Reg) (s : State) : Host.Outcome State Fault Refusal :=
  finish s (.ok (s.advance.setReg x (s.reg x ^^^ s.reg y)))

/-- `ADD Vx, Vy`: `VF` the carry, then `V[x]` the 8-bit sum (R126). -/
def execAddReg (x y : Reg) (s : State) : Host.Outcome State Fault Refusal :=
  finish s (.ok (s.advance.flagThenResult x (carryOut (s.reg x) (s.reg y)) (s.reg x + s.reg y)))

/-- `SUB Vx, Vy`: `VF` the not-borrow, then `V[x]` the 8-bit difference `VX - VY` (R127). -/
def execSubReg (x y : Reg) (s : State) : Host.Outcome State Fault Refusal :=
  finish s (.ok (s.advance.flagThenResult x (notBorrow (s.reg x) (s.reg y)) (s.reg x - s.reg y)))

/-- `SHR Vx`: `VF` bit 0, then `V[x]` shifted right by one; `y` is ignored (R128). -/
def execShr (x _y : Reg) (s : State) : Host.Outcome State Fault Refusal :=
  finish s (.ok (s.advance.flagThenShift x (shiftedOutRight (s.reg x)) fun b => b >>> 1))

/-- `SUBN Vx, Vy`: `VF` the not-borrow, then `V[x]` the 8-bit difference `VY - VX` (R129). -/
def execSubnReg (x y : Reg) (s : State) : Host.Outcome State Fault Refusal :=
  finish s (.ok (s.advance.flagThenResult x (notBorrow (s.reg y) (s.reg x)) (s.reg y - s.reg x)))

/-- `SHL Vx`: `VF` bit 7, then `V[x]` shifted left by one; `y` is ignored (R130). -/
def execShl (x _y : Reg) (s : State) : Host.Outcome State Fault Refusal :=
  finish s (.ok (s.advance.flagThenShift x (shiftedOutLeft (s.reg x)) fun b => b <<< 1))

end Sys2Proof.Machine
end

