-- ==== Sys2Proof/Machine/Control.lean ====
section
/-!
DEFINITION. The control-flow instructions (spec/40_control_flow.md R100 to R108). Each meaning takes the state the
step begins in: the handler works on the advanced state (R75) and `finish` adds the tick or takes the fatal condition.
-/

namespace Sys2Proof.Machine

/-- `CLS`: every cell off (R100). -/
def execCls (s : State) : Host.Outcome State Fault Refusal :=
  finish s (.ok (s.advance.setFb blankFramebuffer))

/-- `RET`: the stack popped into `pc` (R101). -/
def execRet (s : State) : Host.Outcome State Fault Refusal :=
  finish s s.advance.popPc

/-- `JP NNN`: `pc <- NNN` (R102). -/
def execJp (nnn : Imm12) (s : State) : Host.Outcome State Fault Refusal :=
  finish s (.ok (s.advance.setPc (immAddr nnn)))

/-- `CALL NNN`: the advanced `pc` pushed, then `pc <- NNN` (R103). -/
def execCall (nnn : Imm12) (s : State) : Host.Outcome State Fault Refusal :=
  finish s ((s.advance.push s.advance.pc).map fun t => t.setPc (immAddr nnn))

/-- `SE Vx, NN`: skip if equal (R104). -/
def execSeImm (x : Reg) (nn : Byte) (s : State) : Host.Outcome State Fault Refusal :=
  finish s (.ok (s.advance.skipIf (s.reg x == nn)))

/-- `SNE Vx, NN`: skip if different (R105). -/
def execSneImm (x : Reg) (nn : Byte) (s : State) : Host.Outcome State Fault Refusal :=
  finish s (.ok (s.advance.skipIf (s.reg x != nn)))

/-- `SE Vx, Vy`: skip if equal (R106). -/
def execSeReg (x y : Reg) (s : State) : Host.Outcome State Fault Refusal :=
  finish s (.ok (s.advance.skipIf (s.reg x == s.reg y)))

/-- `SNE Vx, Vy`: skip if different (R107). -/
def execSneReg (x y : Reg) (s : State) : Host.Outcome State Fault Refusal :=
  finish s (.ok (s.advance.skipIf (s.reg x != s.reg y)))

/-- `JP V0, NNN`: `pc <- NNN + V[0]`, the register always `V[0]` (R108). -/
def execJpV0 (nnn : Imm12) (s : State) : Host.Outcome State Fault Refusal :=
  finish s (.ok (s.advance.setPc (immAddr nnn + zextByte (s.reg 0))))

end Sys2Proof.Machine
end

