-- ==== Sys2Proof/Machine/Draw.lean ====
section
/-!
DEFINITION. The draw instruction (spec/43_draw.md R150 to R153): the row and column loops of R150 over a canvas, the
framebuffer with the collision found so far.
-/

namespace Sys2Proof.Machine

/-- The framebuffer during a draw and whether a cell has gone from on to off (R150, R152). -/
structure Canvas where
  /-- The cells. -/
  fb : Framebuffer
  /-- `collided`. -/
  collided : Bool
  deriving DecidableEq, Repr

/-- The cell at column `x`, row `y` (R26). -/
def Framebuffer.cell (f : Framebuffer) (x : Fin 64) (y : Fin 32) : Bool := f[x][y]

/-- The framebuffer with one cell set (R26). -/
def Framebuffer.setCell (f : Framebuffer) (x : Fin 64) (y : Fin 32) (b : Bool) : Framebuffer :=
  f.set x (f[x].set y b)

/-- One sprite bit that is 1, at its place: a cell that is on is a collision, and the cell is inverted; a dropped
pixel changes nothing (R150, R151). -/
def Canvas.plot (edge : DrawEdge) (xx yy : Nat) (d : Canvas) : Canvas :=
  match place edge xx yy with
  | some (x, y) =>
    { fb := Framebuffer.setCell d.fb x y (!Framebuffer.cell d.fb x y),
      collided := d.collided || Framebuffer.cell d.fb x y }
  | none => d

/-- The columns of one sprite row, left to right, from column `c` on, `n` of them (R150). -/
def Canvas.drawColumns (edge : DrawEdge) (b : Byte) (x0 yy c : Nat) : Nat → Canvas → Canvas
  | 0, d => d
  | n + 1, d =>
    Canvas.drawColumns edge b x0 yy (c + 1) n
      (if spriteBit b c then Canvas.plot edge (x0 + c) yy d else d)

/-- The rows of the sprite, top to bottom, the first on row `yy`; each row is 8 columns (R150). -/
def Canvas.drawRows (edge : DrawEdge) (x0 yy : Nat) : List Byte → Canvas → Canvas
  | [], d => d
  | b :: rows, d => Canvas.drawRows edge x0 (yy + 1) rows (Canvas.drawColumns edge b x0 yy 0 8 d)

/-- The whole sprite drawn on a framebuffer, its start coordinates from the two registers' values (R150). -/
def drawSprite (edge : DrawEdge) (vx vy : Byte) (rows : List Byte) (f : Framebuffer) : Canvas :=
  Canvas.drawRows edge (startColumn vx) (startRow vy) rows { fb := f, collided := false }

/-- The framebuffer and `VF` written from a finished draw, `VF` last (R150). -/
def State.putCanvas (s : State) (d : Canvas) : State := (s.setFb d.fb).setFlag d.collided

/-- `DRW Vx, Vy, N`: the sprite's bytes read at `I`, all addresses checked first, then drawn; `VF` the collision
(R150). -/
def execDrw (x y : Reg) (n : Fin 16) (s : State) : Host.Outcome State Fault Refusal :=
  finish s ((s.advance.loadBytes n.val).map fun rows =>
    s.advance.putCanvas (drawSprite s.cfg.drawEdge (s.reg x) (s.reg y) rows s.fb))

end Sys2Proof.Machine
end

