-- ==== Sys2Proof/Machine/Input.lean ====
section
/-!
DEFINITION. The keypad instructions (spec/44_input.md R160 to R162). The keypad is only read (R25); the handler works
on the advanced state (R75).
-/

namespace Sys2Proof.Machine

/-- `SKP Vx`: skip if the key `V[x]` names is pressed; `KeyIndexOutOfRange` above 15 (R160). -/
def execSkp (x : Reg) (s : State) : Host.Outcome State Fault Refusal :=
  finish s ((keyOf (s.reg x)).map fun k => s.advance.skipIf s.keys[k])

/-- `SKNP Vx`: skip if the key `V[x]` names is not pressed; `KeyIndexOutOfRange` above 15 (R161). -/
def execSknp (x : Reg) (s : State) : Host.Outcome State Fault Refusal :=
  finish s ((keyOf (s.reg x)).map fun k => s.advance.skipIf (!s.keys[k]))

/-- `LD Vx, K`: the lowest pressed key into `V[x]`, or `pc <- pc0` when none is pressed, so that the same instruction
is fetched next (R162). -/
def execLdVxK (x : Reg) (s : State) : Host.Outcome State Fault Refusal :=
  finish s (.ok (match lowestKey s.keys with
    | some k => s.advance.setReg x (BitVec.ofNat 8 k)
    | none => s.advance.setPc s.pc))

end Sys2Proof.Machine
end

