-- ==== Sys2Proof/Machine/MemoryIndex.lean ====
section
/-!
DEFINITION. The memory and index instructions (spec/42_memory_index.md R140 to R145). None but `LD I`, `ADD I` and
`LD F` changes `I` (R146); the handler works on the advanced state (R75).
-/

namespace Sys2Proof.Machine

/-- `LD I, NNN` (R140). -/
def execLdI (nnn : Imm12) (s : State) : Host.Outcome State Fault Refusal :=
  finish s (.ok (s.advance.setIdx (immAddr nnn)))

/-- `ADD I, Vx`: 16-bit wrapping sum, `VF` unaffected (R141). -/
def execAddI (x : Reg) (s : State) : Host.Outcome State Fault Refusal :=
  finish s (.ok (s.advance.setIdx (s.idx + zextByte (s.reg x))))

/-- `LD F, Vx`: the glyph address of the whole 8-bit value; no memory is read (R142). -/
def execLdF (x : Reg) (s : State) : Host.Outcome State Fault Refusal :=
  finish s (.ok (s.advance.setIdx (glyphAddr (s.reg x))))

/-- `LD B, Vx`: the three decimal digits stored at `I`, all addresses checked first (R143). -/
def execLdB (x : Reg) (s : State) : Host.Outcome State Fault Refusal :=
  finish s (s.advance.storeBytes (bcdDigits (s.reg x)))

/-- `LD [I], Vx`: `V[0]` to `V[x]` stored at `I`, all addresses checked first (R144). -/
def execStoreRegs (x : Reg) (s : State) : Host.Outcome State Fault Refusal :=
  finish s (s.advance.storeBytes (s.regsTo x))

/-- `LD Vx, [I]`: `V[0]` to `V[x]` loaded from memory at `I`, all addresses checked first (R145). -/
def execLoadRegs (x : Reg) (s : State) : Host.Outcome State Fault Refusal :=
  finish s ((s.advance.loadBytes (x.val + 1)).map fun bs => { s.advance with v := loadRegsFrom s.v 0 bs })

end Sys2Proof.Machine
end

