-- ==== Sys2Proof/Machine/Random.lean ====
section
/-!
DEFINITION. The random instruction (spec/45_random.md R170, R171).
-/

namespace Sys2Proof.Machine

/-- What `RND Vx, NN` does with the byte the random source answers: `V[x] <- r and NN` (R170). -/
def State.maskInto (s : State) (x : Reg) (nn r : Byte) : State := s.setReg x (r &&& nn)

/-- `RND Vx, NN`: one byte drawn (a free value, log 7), masked into `V[x]` (R170). -/
def execRnd (x : Reg) (nn : Byte) (s : State) : Host.Outcome State Fault Refusal :=
  finish s (.ok (s.advance.draw.2.maskInto x nn s.advance.draw.1))

end Sys2Proof.Machine
end

