-- ==== Sys2Proof/Machine/Timer.lean ====
section
/-!
DEFINITION. The timer instructions (spec/46_timer.md R175 to R177). A read sees the value before this step's tick, a
write is counted down by it (R78, R215): `finish` runs the tick after the handler.
-/

namespace Sys2Proof.Machine

/-- `LD Vx, DT` (R175). -/
def execLdVxDt (x : Reg) (s : State) : Host.Outcome State Fault Refusal :=
  finish s (.ok (s.advance.setReg x s.dt))

/-- `LD DT, Vx` (R176). -/
def execLdDtVx (x : Reg) (s : State) : Host.Outcome State Fault Refusal :=
  finish s (.ok (s.advance.setDt (s.reg x)))

/-- `LD ST, Vx` (R177). -/
def execLdStVx (x : Reg) (s : State) : Host.Outcome State Fault Refusal :=
  finish s (.ok (s.advance.setSt (s.reg x)))

end Sys2Proof.Machine
end

