-- ==== Sys2Proof/Syntax.lean ====
section
/-!
DEFINITION. The instruction set: one constructor per row of spec/opcode_table.json (spec/30_encoding.md R80).
`x`, `y` are register indices, `nn` the 8-bit and `nnn` the 12-bit immediate, `n` the sprite height (R71, R72).
-/

namespace Sys2Proof

/-- The 34 instructions of R80, in the order of its table. -/
inductive Instr where
  /-- `CLS`, 00E0 (R100). -/
  | cls
  /-- `RET`, 00EE (R101). -/
  | ret
  /-- `JP NNN`, 1NNN (R102). -/
  | jp (nnn : Imm12)
  /-- `CALL NNN`, 2NNN (R103). -/
  | call (nnn : Imm12)
  /-- `SE Vx, NN`, 3XNN (R104). -/
  | seImm (x : Reg) (nn : Byte)
  /-- `SNE Vx, NN`, 4XNN (R105). -/
  | sneImm (x : Reg) (nn : Byte)
  /-- `SE Vx, Vy`, 5XY0 (R106). -/
  | seReg (x y : Reg)
  /-- `LD Vx, NN`, 6XNN (R120). -/
  | ldImm (x : Reg) (nn : Byte)
  /-- `ADD Vx, NN`, 7XNN (R121), an instruction only where `ADMIT_ADD_IMM` is true (R9). -/
  | addImm (x : Reg) (nn : Byte)
  /-- `LD Vx, Vy`, 8XY0 (R122). -/
  | ldReg (x y : Reg)
  /-- `OR Vx, Vy`, 8XY1 (R123). -/
  | orReg (x y : Reg)
  /-- `AND Vx, Vy`, 8XY2 (R124). -/
  | andReg (x y : Reg)
  /-- `XOR Vx, Vy`, 8XY3 (R125). -/
  | xorReg (x y : Reg)
  /-- `ADD Vx, Vy`, 8XY4 (R126). -/
  | addReg (x y : Reg)
  /-- `SUB Vx, Vy`, 8XY5 (R127). -/
  | subReg (x y : Reg)
  /-- `SHR Vx`, 8XY6 (R128); `y` is the encoded field the operation ignores (R83). -/
  | shr (x y : Reg)
  /-- `SUBN Vx, Vy`, 8XY7 (R129). -/
  | subnReg (x y : Reg)
  /-- `SHL Vx`, 8XYE (R130); `y` is the encoded field the operation ignores (R83). -/
  | shl (x y : Reg)
  /-- `SNE Vx, Vy`, 9XY0 (R107). -/
  | sneReg (x y : Reg)
  /-- `LD I, NNN`, ANNN (R140). -/
  | ldI (nnn : Imm12)
  /-- `JP V0, NNN`, BNNN (R108). -/
  | jpV0 (nnn : Imm12)
  /-- `RND Vx, NN`, CXNN (R170). -/
  | rnd (x : Reg) (nn : Byte)
  /-- `DRW Vx, Vy, N`, DXYN (R150). -/
  | drw (x y : Reg) (n : Fin 16)
  /-- `SKP Vx`, EX9E (R160). -/
  | skp (x : Reg)
  /-- `SKNP Vx`, EXA1 (R161). -/
  | sknp (x : Reg)
  /-- `LD Vx, DT`, FX07 (R175). -/
  | ldVxDt (x : Reg)
  /-- `LD Vx, K`, FX0A (R162). -/
  | ldVxK (x : Reg)
  /-- `LD DT, Vx`, FX15 (R176). -/
  | ldDtVx (x : Reg)
  /-- `LD ST, Vx`, FX18 (R177). -/
  | ldStVx (x : Reg)
  /-- `ADD I, Vx`, FX1E (R141). -/
  | addI (x : Reg)
  /-- `LD F, Vx`, FX29 (R142). -/
  | ldF (x : Reg)
  /-- `LD B, Vx`, FX33 (R143). -/
  | ldB (x : Reg)
  /-- `LD [I], Vx`, FX55 (R144). -/
  | storeRegs (x : Reg)
  /-- `LD Vx, [I]`, FX65 (R145). -/
  | loadRegs (x : Reg)
  deriving DecidableEq, Repr

end Sys2Proof
end

