-- ==== Sys2Proof/WellFormed.lean ====
section
/-!
DEFINITION. Which instructions exist. Every operand field of an instruction is of exactly its encoded width, and
every value of every field is legal (spec/30_encoding.md R72), so the one check left is the open parameter
`ADMIT_ADD_IMM` (spec/00_scope.md R9; spec/41_arith_logic.md R121): `7XNN` is an instruction only where it is true.
-/

namespace Sys2Proof

/-- The instruction exists on a machine whose `ADMIT_ADD_IMM` is `hasAddImm` (R77, R80, R121). -/
def Instr.wf (hasAddImm : Bool) : Instr → Bool
  | .cls => true
  | .ret => true
  | .jp _ => true
  | .call _ => true
  | .seImm _ _ => true
  | .sneImm _ _ => true
  | .seReg _ _ => true
  | .ldImm _ _ => true
  | .addImm _ _ => hasAddImm
  | .ldReg _ _ => true
  | .orReg _ _ => true
  | .andReg _ _ => true
  | .xorReg _ _ => true
  | .addReg _ _ => true
  | .subReg _ _ => true
  | .shr _ _ => true
  | .subnReg _ _ => true
  | .shl _ _ => true
  | .sneReg _ _ => true
  | .ldI _ => true
  | .jpV0 _ => true
  | .rnd _ _ => true
  | .drw _ _ _ => true
  | .skp _ => true
  | .sknp _ => true
  | .ldVxDt _ => true
  | .ldVxK _ => true
  | .ldDtVx _ => true
  | .ldStVx _ => true
  | .addI _ => true
  | .ldF _ => true
  | .ldB _ => true
  | .storeRegs _ => true
  | .loadRegs _ => true

end Sys2Proof
end

