-- ==== Sys2Proof/Decode.lean ====
section
/-!
DEFINITION. The dispatch table of spec/30_encoding.md R77, total on all 65536 words and on any bytes, and the encoder
written from the opcode map R80 and the formats R73.
-/

namespace Sys2Proof

/-- Why bytes are no instruction. -/
inductive DecodeError where
  /-- The word matches no row of R80 (R82). -/
  | invalidOpcode (w : Word)
  /-- Fewer than the two bytes of an instruction (R70) were given; the machine's fetch always gives two. -/
  | truncated (length : Nat)
  deriving DecidableEq, Repr

/-! ### The fields of an instruction word (R71) -/

/-- `OP`, bits 15:12. -/
def opOf (w : Word) : Nibble := w.extractLsb' 12 4

/-- `X`, bits 11:8, as a register index. -/
def xOf (w : Word) : Reg := (w.extractLsb' 8 4).toFin

/-- `Y`, bits 7:4, as a register index. -/
def yOf (w : Word) : Reg := (w.extractLsb' 4 4).toFin

/-- `N`, bits 3:0. -/
def nOf (w : Word) : Nibble := w.extractLsb' 0 4

/-- `NN`, bits 7:0. -/
def nnOf (w : Word) : Byte := w.extractLsb' 0 8

/-- `NNN`, bits 11:0. -/
def nnnOf (w : Word) : Imm12 := w.extractLsb' 0 12

/-! ### The two-level dispatch table (R77) -/

/-- Level 2 table T0, indexed by `NNN`: family 0 matches all 12 low bits. -/
def decodeT0 (w : Word) : Except DecodeError Instr :=
  match (nnnOf w).toNat with
  | 0x0E0 => .ok .cls
  | 0x0EE => .ok .ret
  | _ => .error (.invalidOpcode w)

/-- Level 2 table T8, indexed by `N`: the ALU family. -/
def decodeT8 (w : Word) : Except DecodeError Instr :=
  match (nOf w).toNat with
  | 0x0 => .ok (.ldReg (xOf w) (yOf w))
  | 0x1 => .ok (.orReg (xOf w) (yOf w))
  | 0x2 => .ok (.andReg (xOf w) (yOf w))
  | 0x3 => .ok (.xorReg (xOf w) (yOf w))
  | 0x4 => .ok (.addReg (xOf w) (yOf w))
  | 0x5 => .ok (.subReg (xOf w) (yOf w))
  | 0x6 => .ok (.shr (xOf w) (yOf w))
  | 0x7 => .ok (.subnReg (xOf w) (yOf w))
  | 0xE => .ok (.shl (xOf w) (yOf w))
  | _ => .error (.invalidOpcode w)

/-- Level 2 table TE, indexed by `NN`: the keypad skips. -/
def decodeTE (w : Word) : Except DecodeError Instr :=
  match (nnOf w).toNat with
  | 0x9E => .ok (.skp (xOf w))
  | 0xA1 => .ok (.sknp (xOf w))
  | _ => .error (.invalidOpcode w)

/-- Level 2 table TF, indexed by `NN`. -/
def decodeTF (w : Word) : Except DecodeError Instr :=
  match (nnOf w).toNat with
  | 0x07 => .ok (.ldVxDt (xOf w))
  | 0x0A => .ok (.ldVxK (xOf w))
  | 0x15 => .ok (.ldDtVx (xOf w))
  | 0x18 => .ok (.ldStVx (xOf w))
  | 0x1E => .ok (.addI (xOf w))
  | 0x29 => .ok (.ldF (xOf w))
  | 0x33 => .ok (.ldB (xOf w))
  | 0x55 => .ok (.storeRegs (xOf w))
  | 0x65 => .ok (.loadRegs (xOf w))
  | _ => .error (.invalidOpcode w)

/-- Level 1, indexed by `OP` (R77); `hasAddImm` is the parameter `ADMIT_ADD_IMM` (R9). -/
def decode (hasAddImm : Bool) (w : Word) : Except DecodeError Instr :=
  match (opOf w).toNat with
  | 0x0 => decodeT0 w
  | 0x1 => .ok (.jp (nnnOf w))
  | 0x2 => .ok (.call (nnnOf w))
  | 0x3 => .ok (.seImm (xOf w) (nnOf w))
  | 0x4 => .ok (.sneImm (xOf w) (nnOf w))
  | 0x5 => if nOf w = 0 then .ok (.seReg (xOf w) (yOf w)) else .error (.invalidOpcode w)
  | 0x6 => .ok (.ldImm (xOf w) (nnOf w))
  | 0x7 => if hasAddImm then .ok (.addImm (xOf w) (nnOf w)) else .error (.invalidOpcode w)
  | 0x8 => decodeT8 w
  | 0x9 => if nOf w = 0 then .ok (.sneReg (xOf w) (yOf w)) else .error (.invalidOpcode w)
  | 0xA => .ok (.ldI (nnnOf w))
  | 0xB => .ok (.jpV0 (nnnOf w))
  | 0xC => .ok (.rnd (xOf w) (nnOf w))
  | 0xD => .ok (.drw (xOf w) (yOf w) (nOf w).toFin)
  | 0xE => decodeTE w
  | _ => decodeTF w

/-- The instruction word of two bytes in fetch order: the first byte is bits 15:8 (R54, R74). -/
def wordOfBytes (first second : Byte) : Word := first ++ second

/-- Decoding a list of bytes: the first two are the instruction, the rest is handed back (R70, R74). -/
def decodeBytes (hasAddImm : Bool) : List Byte → Except DecodeError (Instr × List Byte)
  | first :: second :: rest =>
    match decode hasAddImm (wordOfBytes first second) with
    | .ok i => .ok (i, rest)
    | .error e => .error e
  | short => .error (.truncated short.length)

/-! ### The encoder (R73, R80) -/

/-- Format `A`: `OP NNN`. -/
def wordA (op : Nibble) (nnn : Imm12) : Word := op ++ nnn

/-- Formats `XI` and `XS`: `OP X NN`. -/
def wordXI (op : Nibble) (x : Reg) (nn : Byte) : Word := op ++ (BitVec.ofFin (w := 4) x ++ nn : Imm12)

/-- Formats `XY` and `XYN`: `OP X Y N`. -/
def wordXYN (op : Nibble) (x y : Reg) (n : Nibble) : Word :=
  op ++ (BitVec.ofFin (w := 4) x ++ (BitVec.ofFin (w := 4) y ++ n : Byte) : Imm12)

/-- The instruction word of an instruction, from the rows of R80. -/
def encode : Instr → Word
  | .cls => 0x00E0
  | .ret => 0x00EE
  | .jp nnn => wordA 0x1 nnn
  | .call nnn => wordA 0x2 nnn
  | .seImm x nn => wordXI 0x3 x nn
  | .sneImm x nn => wordXI 0x4 x nn
  | .seReg x y => wordXYN 0x5 x y 0x0
  | .ldImm x nn => wordXI 0x6 x nn
  | .addImm x nn => wordXI 0x7 x nn
  | .ldReg x y => wordXYN 0x8 x y 0x0
  | .orReg x y => wordXYN 0x8 x y 0x1
  | .andReg x y => wordXYN 0x8 x y 0x2
  | .xorReg x y => wordXYN 0x8 x y 0x3
  | .addReg x y => wordXYN 0x8 x y 0x4
  | .subReg x y => wordXYN 0x8 x y 0x5
  | .shr x y => wordXYN 0x8 x y 0x6
  | .subnReg x y => wordXYN 0x8 x y 0x7
  | .shl x y => wordXYN 0x8 x y 0xE
  | .sneReg x y => wordXYN 0x9 x y 0x0
  | .ldI nnn => wordA 0xA nnn
  | .jpV0 nnn => wordA 0xB nnn
  | .rnd x nn => wordXI 0xC x nn
  | .drw x y n => wordXYN 0xD x y (BitVec.ofFin (w := 4) n)
  | .skp x => wordXI 0xE x 0x9E
  | .sknp x => wordXI 0xE x 0xA1
  | .ldVxDt x => wordXI 0xF x 0x07
  | .ldVxK x => wordXI 0xF x 0x0A
  | .ldDtVx x => wordXI 0xF x 0x15
  | .ldStVx x => wordXI 0xF x 0x18
  | .addI x => wordXI 0xF x 0x1E
  | .ldF x => wordXI 0xF x 0x29
  | .ldB x => wordXI 0xF x 0x33
  | .storeRegs x => wordXI 0xF x 0x55
  | .loadRegs x => wordXI 0xF x 0x65

/-- The two bytes an assembler emits for an instruction, high byte first (R54, R86). -/
def encodeBytes (i : Instr) : List Byte :=
  [(encode i).extractLsb' 8 8, (encode i).extractLsb' 0 8]

/-- The instruction read from an instruction whose bits are `w`, numbered as spec/opcode_table.json numbers them:
one 16-bit word, laid out high byte first (R54), decoded with the parameters at their defaults (R9, log 11). -/
def decodeTableWord (nbits w : Nat) : Option Instr :=
  let word : Word := BitVec.ofNat 16 (w % 2 ^ nbits)
  match decodeBytes Config.defaults.admitAddImm [word.extractLsb' 8 8, word.extractLsb' 0 8] with
  | .ok (i, _) => some i
  | .error _ => none

end Sys2Proof
end

