-- ==== Sys2Proof/Machine/Fetch.lean ====
section
/-!
DEFINITION. Fetching and decoding one instruction (spec/30_encoding.md R74, R77), and placing an instruction word
where the next step fetches it.
-/

namespace Sys2Proof.Machine

/-- The bytes at `pc` and `pc + 1`, their effective addresses checked lowest first (R53, R74). -/
def State.fetchBytes (s : State) : Except Cause (List Byte) :=
  match resolveFrom s.cfg.addrPolicy s.pc.toNat 2 with
  | .error c => .error c
  | .ok as => .ok (as.map (Mem.read s.mem))

/-- The fatal condition of bytes that are no instruction (R82, R181). Fetch gives two bytes, so the second arm is for
totality alone. -/
def causeOfDecodeError : DecodeError → Cause
  | .invalidOpcode w => .invalidOpcode w
  | .truncated _ => .invalidOpcode 0

/-- The instruction at `pc`: fetch, then decode; the first fatal condition met is the one raised (R76, R189). -/
def State.fetchInstr (s : State) : Except Cause Instr :=
  match s.fetchBytes with
  | .error c => .error c
  | .ok bs =>
    match decodeBytes s.cfg.admitAddImm bs with
    | .error e => .error (causeOfDecodeError e)
    | .ok (i, _) => .ok i

/-- The state with an instruction word stored at `pc`, high byte first (R54), and the engine running: all that the
next fetch needs. -/
def State.placeWord (s : State) (w : Word) : State :=
  { s with
    mem := Mem.write (Mem.write s.mem (s.pc.toNat % 4096) (w.extractLsb' 8 8))
      ((s.pc.toNat + 1) % 4096) (w.extractLsb' 0 8),
    status := .running }

end Sys2Proof.Machine
end

