-- ==== Sys2Proof/Machine/Step.lean ====
section
/-!
DEFINITION. One step of the engine (spec/30_encoding.md R76).
-/

namespace Sys2Proof.Machine

/-- One step: in a faulted state nothing changes and the cause stays the report (R192); otherwise fetch and decode,
which may take a fatal condition (R190), and run the instruction. -/
def step (s : State) : Host.Outcome State Fault Refusal :=
  match s.status with
  | .faulted _ => .next s
  | .running =>
    match s.fetchInstr with
    | .error c => .next (s.takeFault c)
    | .ok i => exec i s

/-- The state with the instruction of table bits `w` stored where the next step fetches, and the engine running
(log 12). Every instruction is one 16-bit word, so bits above 15 belong to no instruction. -/
def State.withFetchWord (s : State) (nbits w : Nat) : State :=
  s.placeWord (BitVec.ofNat 16 (w % 2 ^ nbits))

end Sys2Proof.Machine
end

