-- ==== Sys2Proof/Machine/HostInterface.lean ====
section
/-!
DEFINITION. The host's transactions other than `step` (spec/60_exceptions.md R200) and construction
(spec/70_reset_and_hazards.md R210, R211). Arguments are of exactly the legal ranges; the host has no other move
(D29, log 9).
-/

namespace Sys2Proof.Machine

/-- The largest program image: 4096 - 0x200 bytes (R8 `ROM_MAX`). -/
def romMax : Nat := 3584

/-- Memory after construction: zeroed, the font at 0x050, the program image at 0x200 (R210). The base is the
memory with nothing listed, which already holds the conventional font; the font of the configuration is then
written over it (log 8). -/
def constructedMemory (cfg : Config) (rom : List Byte) : Memory :=
  Mem.writeFrom (Mem.writeFrom [] 0x050 cfg.font.toList) 0x200 rom

/-- `construct(rom)`: the size check before anything is copied, then the reset state with the image in memory
(R210, R211). -/
def construct (cfg : Config) (rom : List Byte) : Host.Outcome State Fault Refusal :=
  if romMax < rom.length then .fault (.programTooLarge rom.length)
  else .next { State.reset with mem := constructedMemory cfg rom, cfg := cfg }

/-- `set_key(index, pressed)` (R25, R200). -/
def setKey (k : Fin 16) (pressed : Bool) (s : State) : State := { s with keys := s.keys.set k pressed }

/-- `read_pixel(x, y)` (R200). -/
def readPixel (x : Fin 64) (y : Fin 32) (s : State) : Bool := Framebuffer.cell s.fb x y

/-- `read_delay_timer()` (R200). -/
def readDelayTimer (s : State) : Byte := s.dt

/-- `read_sound_timer()` (R200). -/
def readSoundTimer (s : State) : Byte := s.st

/-- The width constant (R8, R200). -/
def fbWidth : Nat := 64

/-- The height constant (R8, R200). -/
def fbHeight : Nat := 32

/-- What the `step()` that led to a state returned to the host: nothing for success, or the cause (R34, R190). -/
def stepReport (s : State) : Option Cause :=
  match s.status with
  | .running => none
  | .faulted c => some c

/-- The codes of the fatal conditions a step raises (R180); the numbers are labels (D17). Code 4 is `Fault.code`. -/
def Cause.code : Cause → Nat
  | .invalidOpcode _ => 1
  | .stackOverflow => 2
  | .stackUnderflow => 3
  | .addressOutOfRange _ => 5
  | .keyIndexOutOfRange _ => 6

/-- The code of the fatal condition construction raises (R180, R184); the number is a label (D17). -/
def Fault.code : Fault → Nat
  | .programTooLarge _ => 4

end Sys2Proof.Machine
end

