-- ==== Sys2Proof/Safety.lean ====
section
/-!
DEFINITION. What counts as a safe run, and the terms the claims use: which parts of the state an instruction keeps,
the effect of the tick, the invariant of the state, and the final state of spec/70_reset_and_hazards.md R214.
-/

namespace Sys2Proof.Machine

/-- The engine is not faulted (R29). -/
def State.Running (s : State) : Prop := s.status = .running

/-- A run of `k` steps is safe: it ends in a running state. A faulted state is never left (R192), so no step of the
run raised a fatal condition. -/
def SafeRun (k : Nat) (s : State) : Prop := ∃ t, Sys2Proof.core.run k s = .next t ∧ t.Running

/-- The invariant of every state: memory is in its canonical form, 4096 addresses, strictly rising (log 8). -/
def State.Inv (s : State) : Prop := Mem.wf s.mem = true

/-- The final state R214 suggests: running, the word at `pc` a jump to `pc`, both timers zero (D26). -/
def State.Final (s : State) : Prop :=
  s.Running ∧ (∃ nnn, s.fetchInstr = .ok (.jp nnn) ∧ immAddr nnn = s.pc) ∧ s.dt = 0 ∧ s.st = 0

/-- The parts of the state: one for each field of `State`. -/
inductive Part where
  | v | idx | pc | sp | stack | dt | st | keys | fb | mem | status | cfg | draws
  deriving DecidableEq, Repr

/-- A part is the same in two states; memory byte by byte, through the model's read. -/
def Part.Same (s t : State) : Part → Prop
  | .v => ∀ r : Reg, t.v[r] = s.v[r]
  | .idx => t.idx = s.idx
  | .pc => t.pc = s.pc
  | .sp => t.sp = s.sp
  | .stack => t.stack = s.stack
  | .dt => t.dt = s.dt
  | .st => t.st = s.st
  | .keys => t.keys = s.keys
  | .fb => ∀ x y, Framebuffer.cell t.fb x y = Framebuffer.cell s.fb x y
  | .mem => ∀ a, Mem.read t.mem a = Mem.read s.mem a
  | .status => t.status = s.status
  | .cfg => t.cfg = s.cfg
  | .draws => t.draws = s.draws

/-- Every part but those listed is the same. -/
def KeptBut (changed : List Part) (s t : State) : Prop := ∀ p, p ∉ changed → Part.Same s t p

/-- Every general register but those listed is the same. -/
def RegsKeptBut (changed : List Reg) (s t : State) : Prop := ∀ r, r ∉ changed → t.v[r] = s.v[r]

/-- The tick's effect on timers that held `dt` and `st` (R78): each one less, never below zero. -/
def TickedFrom (dt st : Byte) (t : State) : Prop := t.dt.toNat = dt.toNat - 1 ∧ t.st.toNat = st.toNat - 1

/-- The next state of an instruction that advances `pc` by 2, ticks both timers, and changes nothing else but the
parts listed (R75, R78). -/
def Completes (changed : List Part) (s t : State) : Prop :=
  t.pc = s.pc + 2 ∧ TickedFrom s.dt s.st t ∧ KeptBut (.pc :: .dt :: .st :: changed) s t

/-- The data access of `n` bytes at `I` is allowed: `ADDR_POLICY = wrap`, or every effective address is below 4096
(R52, R53); an access of no bytes always is. -/
def DataInRange (s : State) (n : Nat) : Prop :=
  n = 0 ∨ s.cfg.addrPolicy = .wrap ∨ s.idx.toNat + n ≤ 4096

/-- The physical address of the data byte at offset `k` from `I` (R52, R146). -/
def dataAddr (s : State) (k : Nat) : Nat := (s.idx.toNat + k) % 4096

/-- Both bytes of the fetch at `pc` are allowed (R52, R74). -/
def FetchInRange (s : State) : Prop := s.cfg.addrPolicy = .wrap ∨ s.pc.toNat + 2 ≤ 4096

/-- The word at `pc`, the byte at `pc` in bits 15:8 (R54, R74). -/
def wordAtPc (s : State) : Word :=
  Mem.read s.mem (s.pc.toNat % 4096) ++ Mem.read s.mem ((s.pc.toNat + 1) % 4096)

/-- A sprite pixel at column `xx`, row `yy` lands on cell `(cx, cy)` (R151). -/
def Lands (edge : DrawEdge) (xx yy : Nat) (cx : Fin 64) (cy : Fin 32) : Prop :=
  match edge with
  | .wrap => cx.val = xx % 64 ∧ cy.val = yy % 32
  | .clip => cx.val = xx ∧ cy.val = yy

/-- Cell `(cx, cy)` lies under a set bit of the `n`-row sprite in memory at `I`, drawn from column `x0`, row `y0`:
row `r` is the byte at `I + r`, column `c` its bit `7 - c` (R150, R153). -/
def SpriteCovers (s : State) (x0 y0 n : Nat) (cx : Fin 64) (cy : Fin 32) : Prop :=
  ∃ r c, r < n ∧ c < 8 ∧ (Mem.read s.mem (dataAddr s r)).getLsbD (7 - c) = true ∧
    Lands s.cfg.drawEdge (x0 + c) (y0 + r) cx cy

/-- Nested calls: the `CALL`s of a list of targets, run one after another (R182). -/
def callAll : List Imm12 → State → Host.Outcome State Fault Refusal
  | [], s => .next s
  | nnn :: rest, s =>
    match exec (.call nnn) s with
    | .next t => callAll rest t
    | stopped => stopped

/-- The handler's own fatal condition holds for the instruction in this state: full or empty stack, no such key,
data address out of range (R180, R189). -/
def HandlerRaises (s : State) : Instr → Prop
  | .call _ => s.sp.val = 16
  | .ret => s.sp.val = 0
  | .skp x | .sknp x => 15 < (s.v[x]).toNat
  | .ldB _ => ¬DataInRange s 3
  | .storeRegs x | .loadRegs x => ¬DataInRange s (x.val + 1)
  | .drw _ _ n => ¬DataInRange s n.val
  | _ => False

/-- The illegal words of R82, family by family, for the word's numeric value; `hasAddImm` is `ADMIT_ADD_IMM`. -/
def IllegalWord (hasAddImm : Bool) (w : Nat) : Prop :=
  (w / 4096 = 0x0 ∧ w ≠ 0x00E0 ∧ w ≠ 0x00EE) ∨
  (w / 4096 = 0x5 ∧ w % 16 ≠ 0) ∨
  (w / 4096 = 0x7 ∧ hasAddImm = false) ∨
  (w / 4096 = 0x8 ∧ w % 16 ∈ [0x8, 0x9, 0xA, 0xB, 0xC, 0xD, 0xF]) ∨
  (w / 4096 = 0x9 ∧ w % 16 ≠ 0) ∨
  (w / 4096 = 0xE ∧ w % 256 ∉ [0x9E, 0xA1]) ∨
  (w / 4096 = 0xF ∧ w % 256 ∉ [0x07, 0x0A, 0x15, 0x18, 0x1E, 0x29, 0x33, 0x55, 0x65])

end Sys2Proof.Machine
end

