-- ==== Sys2Proof/Certificates/Slice0/Obligations.lean ====
section
/-!
DEFINITION. The statements for the provers. Each says what one or more numbered rules of spec/ say the machine does;
where a clause rests on a decision the spec marks as its own (92_eei_decisions.md, D<n>) or on a log entry, the
docstring says so.
-/

open Sys2Proof Sys2Proof.Machine

/-! ### Reset and construction -/

/-- The state after reset: memory zeroed but for the font table (R32, R51), registers, timers, keys and framebuffer
zero, `pc` 0x200, `sp` 0 (the spec's own decision D15; log 3), status running, the default parameters (log 1, 2). -/
def Obligations.ResetHoldsTheConstructionValues : Prop :=
  (∀ r : Reg, State.reset.v[r] = 0) ∧ State.reset.idx = 0 ∧ State.reset.pc = 0x200 ∧ State.reset.sp = 0 ∧
  (∀ k : Fin 16, State.reset.stack[k] = 0) ∧ State.reset.dt = 0 ∧ State.reset.st = 0 ∧
  (∀ k : Fin 16, State.reset.keys[k] = false) ∧
  (∀ x y, Framebuffer.cell State.reset.fb x y = false) ∧
  (∀ a, Mem.read State.reset.mem a =
    if h : 0x050 ≤ a ∧ a < 0x0A0 then conventionalFont[a - 0x050]'(by omega) else 0) ∧
  State.reset.Running ∧ State.reset.cfg = Config.defaults

/-- Construction from an image of at most 3584 bytes leaves the font of the configuration at 0x050, the image at
0x200, zero elsewhere, memory in canonical form, and every other part as in the reset state (R210; the parts other
than memory by D15, log 3). -/
def Obligations.ConstructionCopiesFontAndImage : Prop :=
  ∀ (cfg : Config) (rom : List Byte), rom.length ≤ 3584 →
    ∃ s, construct cfg rom = .next s ∧ s.cfg = cfg ∧ s.Inv ∧ KeptBut [.mem, .cfg] State.reset s ∧
      ∀ a, Mem.read s.mem a =
        if h : 0x050 ≤ a ∧ a < 0x0A0 then cfg.font[a - 0x050]'(by omega)
        else if h : 0x200 ≤ a ∧ a < 0x200 + rom.length then rom[a - 0x200]'(by omega)
        else 0

/-- Construction fails exactly for an image longer than 3584 bytes, with its length reported, and then there is no
state (R211). -/
def Obligations.ConstructionFailsExactlyOnLargeImages : Prop :=
  ∀ (cfg : Config) (rom : List Byte),
    (3584 < rom.length → construct cfg rom = .fault (.programTooLarge rom.length)) ∧
    (rom.length ≤ 3584 → ∃ s, construct cfg rom = .next s)

/-! ### The step -/

/-- Where the word at `pc` decodes, the instruction exists on this machine and the step is `exec` of it; nothing is
added around it (the advance and the tick are `exec`'s own, log 10; big-endian fetch by D1). -/
def Obligations.StepRunsTheDecodedInstruction : Prop :=
  ∀ (s : State) (i : Instr), s.Running → FetchInRange s →
    decode s.cfg.admitAddImm (wordAtPc s) = .ok i →
    i.wf s.cfg.admitAddImm = true ∧ step s = exec i s

/-- Where the word at `pc` is no instruction, the step takes `InvalidOpcode` with the word: only the status changes
(R181; the state after it by D16, log 4, 5). -/
def Obligations.IllegalWordIsFatal : Prop :=
  ∀ (s : State), s.Running → FetchInRange s → IllegalWord s.cfg.admitAddImm (wordAtPc s).toNat →
    step s = .next { s with status := .faulted (.invalidOpcode (wordAtPc s)) }

/-- With `ADDR_POLICY = fault` a fetch at 4095 or above takes `AddressOutOfRange` with the lowest address out of
range (R74, R185 by D7; the state after it by D16). -/
def Obligations.FetchPastMemoryIsFatal : Prop :=
  ∀ (s : State), s.Running → s.cfg.addrPolicy = .fault → 4095 ≤ s.pc.toNat →
    step s = .next { s with status := .faulted (.addressOutOfRange (max 4096 s.pc.toNat)) }

/-- A faulted engine never changes again, however often it is stepped (R192 by D16). -/
def Obligations.FaultedEngineIsStuck : Prop :=
  ∀ (s : State) (c : Cause), s.status = .faulted c → ∀ k, Sys2Proof.core.run k s = .next s

/-- Fatal conditions are precise: a step of a running engine that leaves it faulted has changed nothing but the
status, `pc` and the timers included (R190 by D16; R191). -/
def Obligations.FatalStepsChangeOnlyTheStatus : Prop :=
  ∀ (s t : State), s.Running → step s = .next t → ¬t.Running →
    ∃ c, t = { s with status := .faulted c }

/-- Nothing else is fatal (R187): a step of a running engine ends faulted exactly when the fetch is out of range, the
word is illegal, or the instruction's own condition of R180 holds (R189; conditions 5 and 6 by D7, D8). -/
def Obligations.FatalExactlyUnderTheListedConditions : Prop :=
  ∀ s : State, s.Running → ∃ t, step s = .next t ∧
    (¬t.Running ↔
      ¬FetchInRange s ∨ (FetchInRange s ∧ IllegalWord s.cfg.admitAddImm (wordAtPc s).toNat) ∨
        ∃ i, s.fetchInstr = .ok i ∧ HandlerRaises s i)

/-- A run that ends unfaulted was unfaulted all along: every shorter run of it is safe (R192 by D16). -/
def Obligations.SafeRunsWereSafeThroughout : Prop :=
  ∀ (s : State) (j k : Nat), j ≤ k → SafeRun k s → SafeRun j s

/-! ### Encoding -/

/-- Every instruction of the machine survives encoding: its word decodes to it with every operand, and so do its two
bytes in fetch order in front of any others (R80 by D3, R54 by D1). -/
def Obligations.DecodingInvertsEncoding : Prop :=
  ∀ (hasAddImm : Bool) (i : Instr), i.wf hasAddImm = true →
    decode hasAddImm (encode i) = .ok i ∧
    ∀ rest, decodeBytes hasAddImm (encodeBytes i ++ rest) = .ok (i, rest)

/-- Every word that decodes is the word of the instruction it decodes to, so no two words mean one instruction and
the decoder drops no bit (R80; the ignored field of the shifts is kept, R83). -/
def Obligations.EncodingInvertsDecoding : Prop :=
  ∀ (hasAddImm : Bool) (w : Word) (i : Instr), decode hasAddImm w = .ok i → encode i = w ∧ i.wf hasAddImm = true

/-- The words that are no instruction are exactly those of the table of R82 (by D5, D6), and they are rejected as
`InvalidOpcode` with the word. -/
def Obligations.IllegalWordsAreExactlyTheTable : Prop :=
  ∀ (hasAddImm : Bool) (w : Word),
    (IllegalWord hasAddImm w.toNat → decode hasAddImm w = .error (.invalidOpcode w)) ∧
    (¬IllegalWord hasAddImm w.toNat → ∃ i, decode hasAddImm w = .ok i)

/-- Words written out from the rows of R80 decode to the instructions they stand for: for each of the 16 families
(bits 15:12) at least one, and a timer row of family F; two words are rejected. -/
def Obligations.SampleWordsDecode : Prop :=
  decode true 0x00E0 = .ok .cls ∧ decode true 0x00EE = .ok .ret ∧ decode true 0x1228 = .ok (.jp 0x228) ∧
  decode true 0x2ABC = .ok (.call 0xABC) ∧ decode true 0x332A = .ok (.seImm 3 0x2A) ∧
  decode true 0x4A5C = .ok (.sneImm 10 0x5C) ∧ decode true 0x5010 = .ok (.seReg 0 1) ∧
  decode true 0x6A7F = .ok (.ldImm 10 0x7F) ∧ decode true 0x7A5C = .ok (.addImm 10 0x5C) ∧
  decode true 0x8AB6 = .ok (.shr 10 11) ∧ decode true 0x9AB0 = .ok (.sneReg 10 11) ∧
  decode true 0xA300 = .ok (.ldI 0x300) ∧ decode true 0xBABC = .ok (.jpV0 0xABC) ∧
  decode true 0xC30F = .ok (.rnd 3 0x0F) ∧ decode true 0xD125 = .ok (.drw 1 2 5) ∧
  decode true 0xE2A1 = .ok (.sknp 2) ∧ decode true 0xF207 = .ok (.ldVxDt 2) ∧
  decode true 0xF265 = .ok (.loadRegs 2) ∧ decode true 0x0000 = .error (.invalidOpcode 0x0000) ∧
  decode false 0x7001 = .error (.invalidOpcode 0x7001)

/-! ### Control flow -/

/-- `CLS` (R100): 00E0; every cell off, everything else but `pc` and the tick as before. -/
def Obligations.ClsTurnsEveryCellOff : Prop :=
  (∀ hasAddImm, decode hasAddImm 0x00E0 = .ok .cls) ∧
  ∀ s : State, ∃ t, exec .cls s = .next t ∧ (∀ x y, Framebuffer.cell t.fb x y = false) ∧ Completes [.fb] s t

/-- `RET` (R101): 00EE; with a live entry it is popped into `pc` and kept in the array; with `sp = 0`
`StackUnderflow` is raised and nothing is written. -/
def Obligations.RetPopsTheReturnAddress : Prop :=
  (∀ hasAddImm, decode hasAddImm 0x00EE = .ok .ret) ∧
  ∀ s : State,
    (∀ h : 0 < s.sp.val, ∃ t, exec .ret s = .next t ∧ t.sp.val = s.sp.val - 1 ∧
      t.pc = s.stack[s.sp.val - 1]'(by omega) ∧ TickedFrom s.dt s.st t ∧ KeptBut [.pc, .sp, .dt, .st] s t) ∧
    (s.sp.val = 0 → exec .ret s = .next { s with status := .faulted .stackUnderflow })

/-- `JP NNN` (R102): 1NNN; `pc` becomes the 12-bit target, everything else but the tick as before. -/
def Obligations.JpSetsPc : Prop :=
  (∀ hasAddImm nnn, decode hasAddImm (wordA 0x1 nnn) = .ok (.jp nnn)) ∧
  ∀ (nnn : Imm12) (s : State), ∃ t, exec (.jp nnn) s = .next t ∧ t.pc.toNat = nnn.toNat ∧
    TickedFrom s.dt s.st t ∧ KeptBut [.pc, .dt, .st] s t

/-- `CALL NNN` (R103): 2NNN; below depth 16 the advanced `pc` is written at `stack[sp]`, `sp` goes up by one and `pc`
becomes the target; at depth 16 `StackOverflow` is raised and nothing is written. -/
def Obligations.CallPushesTheAdvancedPc : Prop :=
  (∀ hasAddImm nnn, decode hasAddImm (wordA 0x2 nnn) = .ok (.call nnn)) ∧
  ∀ (nnn : Imm12) (s : State),
    (s.sp.val < 16 → ∃ t, exec (.call nnn) s = .next t ∧ t.pc.toNat = nnn.toNat ∧ t.sp.val = s.sp.val + 1 ∧
      (∀ k : Fin 16, t.stack[k] = if k.val = s.sp.val then s.pc + 2 else s.stack[k]) ∧
      TickedFrom s.dt s.st t ∧ KeptBut [.pc, .sp, .stack, .dt, .st] s t) ∧
    (s.sp.val = 16 → exec (.call nnn) s = .next { s with status := .faulted .stackOverflow })

/-- `StackOverflow` (R182): a `CALL` with `sp = 16` raises it, no stack entry is overwritten and `sp` stays 16; so
sixteen nested calls from an empty stack complete and the seventeenth raises it, whatever their targets. -/
def Obligations.SeventeenthNestedCallOverflows : Prop :=
  (∀ (nnn : Imm12) (s : State), s.sp.val = 16 → ∃ t, exec (.call nnn) s = .next t ∧
    t.status = .faulted .stackOverflow ∧ t.stack = s.stack ∧ t.sp.val = 16) ∧
  ∀ (targets : List Imm12) (nnn : Imm12) (s : State), s.Running → s.sp.val = 0 → targets.length = 16 →
    ∃ t u, callAll targets s = .next t ∧ t.Running ∧ t.sp.val = 16 ∧ exec (.call nnn) t = .next u ∧
      u.status = .faulted .stackOverflow ∧ u.stack = t.stack ∧ u.sp.val = 16

/-- `StackUnderflow` (R183): raised by `RET` exactly when `sp = 0`; then `sp` stays 0 and `pc` is not loaded from the
stack: whatever the stack holds, the rest of the next state is the same. -/
def Obligations.ReturnOnAnEmptyStackUnderflows : Prop :=
  ∀ s : State, s.Running → ∃ t, exec .ret s = .next t ∧
    (t.status = .faulted .stackUnderflow ↔ s.sp.val = 0) ∧
    (s.sp.val = 0 → t.sp.val = 0 ∧
      ∀ held : Vector Word 16, exec .ret { s with stack := held } = .next { t with stack := held })

/-- A call that completed is undone by a return at the same stack: `pc` is the address after the call and the depth is
the old one (R101, corner cases; source section 8). -/
def Obligations.CallThenReturnRoundTrips : Prop :=
  ∀ (nnn : Imm12) (s t u : State), s.Running → exec (.call nnn) s = .next t → t.Running →
    u.sp = t.sp → u.stack = t.stack →
    ∃ w, exec .ret u = .next w ∧ w.pc = s.pc + 2 ∧ w.sp = s.sp

/-- `SE Vx, NN` and `SNE Vx, NN` (R104, R105): 3XNN and 4XNN; `pc` moves by 4 when the register equals (differs from)
the immediate, by 2 otherwise; nothing else but the tick. -/
def Obligations.ImmediateSkips : Prop :=
  (∀ hasAddImm x nn, decode hasAddImm (wordXI 0x3 x nn) = .ok (.seImm x nn)) ∧
  (∀ hasAddImm x nn, decode hasAddImm (wordXI 0x4 x nn) = .ok (.sneImm x nn)) ∧
  ∀ (x : Reg) (nn : Byte) (s : State),
    (∃ t, exec (.seImm x nn) s = .next t ∧ t.pc = (if s.v[x] = nn then s.pc + 4 else s.pc + 2) ∧
      TickedFrom s.dt s.st t ∧ KeptBut [.pc, .dt, .st] s t) ∧
    (∃ t, exec (.sneImm x nn) s = .next t ∧ t.pc = (if s.v[x] ≠ nn then s.pc + 4 else s.pc + 2) ∧
      TickedFrom s.dt s.st t ∧ KeptBut [.pc, .dt, .st] s t)

/-- `SE Vx, Vy` and `SNE Vx, Vy` (R106, R107): 5XY0 and 9XY0; as the immediate forms, comparing two registers. -/
def Obligations.RegisterSkips : Prop :=
  (∀ hasAddImm x y, decode hasAddImm (wordXYN 0x5 x y 0) = .ok (.seReg x y)) ∧
  (∀ hasAddImm x y, decode hasAddImm (wordXYN 0x9 x y 0) = .ok (.sneReg x y)) ∧
  ∀ (x y : Reg) (s : State),
    (∃ t, exec (.seReg x y) s = .next t ∧ t.pc = (if s.v[x] = s.v[y] then s.pc + 4 else s.pc + 2) ∧
      TickedFrom s.dt s.st t ∧ KeptBut [.pc, .dt, .st] s t) ∧
    (∃ t, exec (.sneReg x y) s = .next t ∧ t.pc = (if s.v[x] ≠ s.v[y] then s.pc + 4 else s.pc + 2) ∧
      TickedFrom s.dt s.st t ∧ KeptBut [.pc, .dt, .st] s t)

/-- `JP V0, NNN` (R108): BNNN; `pc` becomes the exact sum of the 12-bit address and `V[0]`, not reduced modulo 4096. -/
def Obligations.JpV0AddsRegisterZero : Prop :=
  (∀ hasAddImm nnn, decode hasAddImm (wordA 0xB nnn) = .ok (.jpV0 nnn)) ∧
  ∀ (nnn : Imm12) (s : State), ∃ t, exec (.jpV0 nnn) s = .next t ∧
    t.pc.toNat = nnn.toNat + (s.v[(0 : Reg)]).toNat ∧ TickedFrom s.dt s.st t ∧ KeptBut [.pc, .dt, .st] s t

/-! ### Arithmetic and logic -/

/-- `LD Vx, NN` and `LD Vx, Vy` (R120, R122): 6XNN and 8XY0; the destination alone is written, `VF` only as the
destination. -/
def Obligations.RegisterLoads : Prop :=
  (∀ hasAddImm x nn, decode hasAddImm (wordXI 0x6 x nn) = .ok (.ldImm x nn)) ∧
  (∀ hasAddImm x y, decode hasAddImm (wordXYN 0x8 x y 0x0) = .ok (.ldReg x y)) ∧
  (∀ (x : Reg) (nn : Byte) (s : State), ∃ t, exec (.ldImm x nn) s = .next t ∧ t.v[x] = nn ∧
    RegsKeptBut [x] s t ∧ Completes [.v] s t) ∧
  (∀ (x y : Reg) (s : State), ∃ t, exec (.ldReg x y) s = .next t ∧ t.v[x] = s.v[y] ∧
    RegsKeptBut [x] s t ∧ Completes [.v] s t)

/-- `ADD Vx, NN` (R121 by D4): the sum modulo 256, no carry recorded: `VF` is kept unless it is the destination. -/
def Obligations.AddImmediateRecordsNoCarry : Prop :=
  ∀ (x : Reg) (nn : Byte) (s : State), ∃ t, exec (.addImm x nn) s = .next t ∧
    (t.v[x]).toNat = ((s.v[x]).toNat + nn.toNat) % 256 ∧ RegsKeptBut [x] s t ∧ Completes [.v] s t

/-- `OR`, `AND`, `XOR` (R123, R124, R125): bit by bit on the destination; `VF` is kept unless it is the destination
(by D21). -/
def Obligations.LogicOperationsKeepTheFlag : Prop :=
  ∀ (x y : Reg) (s : State),
    (∃ t, exec (.orReg x y) s = .next t ∧
      (∀ k, (t.v[x]).getLsbD k = ((s.v[x]).getLsbD k || (s.v[y]).getLsbD k)) ∧
      RegsKeptBut [x] s t ∧ Completes [.v] s t) ∧
    (∃ t, exec (.andReg x y) s = .next t ∧
      (∀ k, (t.v[x]).getLsbD k = ((s.v[x]).getLsbD k && (s.v[y]).getLsbD k)) ∧
      RegsKeptBut [x] s t ∧ Completes [.v] s t) ∧
    (∃ t, exec (.xorReg x y) s = .next t ∧
      (∀ k, (t.v[x]).getLsbD k = ((s.v[x]).getLsbD k ^^ (s.v[y]).getLsbD k)) ∧
      RegsKeptBut [x] s t ∧ Completes [.v] s t)

/-- `ADD Vx, Vy` (R126): the sum modulo 256; `VF` is 1 exactly when the sum is 256 or more. With `X = 15` the sum
survives; with `Y = 15` the old `VF` is the addend (by D13, log 15). -/
def Obligations.AddWithCarryOut : Prop :=
  ∀ (x y : Reg) (s : State), ∃ t, exec (.addReg x y) s = .next t ∧
    (t.v[x]).toNat = ((s.v[x]).toNat + (s.v[y]).toNat) % 256 ∧
    (x ≠ 15 → t.v[(15 : Reg)] = if 256 ≤ (s.v[x]).toNat + (s.v[y]).toNat then 1 else 0) ∧
    RegsKeptBut [x, 15] s t ∧ Completes [.v] s t

/-- `SUB Vx, Vy` and `SUBN Vx, Vy` (R127, R129): the difference modulo 256; `VF` is 1 exactly when the minuend is at
least the subtrahend. With `X = 15` the difference survives (by D13, log 15). -/
def Obligations.SubtractWithNotBorrowOut : Prop :=
  ∀ (x y : Reg) (s : State),
    (∃ t, exec (.subReg x y) s = .next t ∧
      (t.v[x]).toNat = (256 + (s.v[x]).toNat - (s.v[y]).toNat) % 256 ∧
      (x ≠ 15 → t.v[(15 : Reg)] = if (s.v[y]).toNat ≤ (s.v[x]).toNat then 1 else 0) ∧
      RegsKeptBut [x, 15] s t ∧ Completes [.v] s t) ∧
    (∃ t, exec (.subnReg x y) s = .next t ∧
      (t.v[x]).toNat = (256 + (s.v[y]).toNat - (s.v[x]).toNat) % 256 ∧
      (x ≠ 15 → t.v[(15 : Reg)] = if (s.v[x]).toNat ≤ (s.v[y]).toNat then 1 else 0) ∧
      RegsKeptBut [x, 15] s t ∧ Completes [.v] s t)

/-- `SHR Vx` and `SHL Vx` (R128, R130): logical shifts of `V[X]` by one, whatever `Y` (by D14), `VF` the bit shifted
out; with `X = 15` the flag is written first and then shifted: 0 for `SHR`, 0 or 2 for `SHL` (by D13, log 15). -/
def Obligations.ShiftsByOne : Prop :=
  ∀ (x y : Reg) (s : State),
    (∃ t, exec (.shr x y) s = .next t ∧
      (if x = 15 then t.v[(15 : Reg)] = 0
       else (t.v[x]).toNat = (s.v[x]).toNat / 2 ∧ (t.v[(15 : Reg)]).toNat = (s.v[x]).toNat % 2) ∧
      RegsKeptBut [x, 15] s t ∧ Completes [.v] s t) ∧
    (∃ t, exec (.shl x y) s = .next t ∧
      (if x = 15 then (t.v[(15 : Reg)]).toNat = 2 * ((s.v[x]).toNat / 128)
       else (t.v[x]).toNat = 2 * (s.v[x]).toNat % 256 ∧ (t.v[(15 : Reg)]).toNat = (s.v[x]).toNat / 128) ∧
      RegsKeptBut [x, 15] s t ∧ Completes [.v] s t)

/-! ### Memory and index -/

/-- `LD I, NNN` and `ADD I, Vx` (R140, R141): ANNN and FX1E; the 12-bit constant, and the 16-bit wrapping sum with
`VF` unaffected. -/
def Obligations.IndexLoadAndAdd : Prop :=
  (∀ hasAddImm nnn, decode hasAddImm (wordA 0xA nnn) = .ok (.ldI nnn)) ∧
  (∀ hasAddImm x, decode hasAddImm (wordXI 0xF x 0x1E) = .ok (.addI x)) ∧
  (∀ (nnn : Imm12) (s : State), ∃ t, exec (.ldI nnn) s = .next t ∧ t.idx.toNat = nnn.toNat ∧
    Completes [.idx] s t) ∧
  (∀ (x : Reg) (s : State), ∃ t, exec (.addI x) s = .next t ∧
    t.idx.toNat = (s.idx.toNat + (s.v[x]).toNat) % 65536 ∧ Completes [.idx] s t)

/-- `LD F, Vx` (R142): `I` is 0x050 + 5 * `V[X]`, over the whole 8-bit value (by D9), and no memory is read. -/
def Obligations.FontAddressOfADigit : Prop :=
  ∀ (x : Reg) (s : State), ∃ t, exec (.ldF x) s = .next t ∧
    t.idx.toNat = 0x050 + 5 * (s.v[x]).toNat ∧ Completes [.idx] s t

/-- `LD B, Vx` (R143), where its three addresses are in range (by D7): hundreds, tens and ones at `I`, `I + 1`,
`I + 2`, every other byte as before, `I` kept. The addresses are those the meaning computes. -/
def Obligations.BcdStoresThreeDigits : Prop :=
  ∀ (x : Reg) (s : State), DataInRange s 3 →
    s.advance.dataAddrs 3 = .ok [dataAddr s 0, dataAddr s 1, dataAddr s 2] ∧
    ∃ t, exec (.ldB x) s = .next t ∧
      (Mem.read t.mem (dataAddr s 0)).toNat = (s.v[x]).toNat / 100 ∧
      (Mem.read t.mem (dataAddr s 1)).toNat = (s.v[x]).toNat / 10 % 10 ∧
      (Mem.read t.mem (dataAddr s 2)).toNat = (s.v[x]).toNat % 10 ∧
      (∀ a, a ∉ [dataAddr s 0, dataAddr s 1, dataAddr s 2] → Mem.read t.mem a = Mem.read s.mem a) ∧
      Completes [.mem] s t

/-- `LD [I], Vx` (R144), where its addresses are in range (by D7): `V[k]` at `I + k` for `0 <= k <= X`, every other
byte as before, registers and `I` kept. The addresses are those the meaning computes. -/
def Obligations.BulkStoreWritesRegistersInOrder : Prop :=
  ∀ (x : Reg) (s : State), DataInRange s (x.val + 1) →
    s.advance.dataAddrs (x.val + 1) = .ok ((List.range (x.val + 1)).map (dataAddr s)) ∧
    ∃ t, exec (.storeRegs x) s = .next t ∧
      (∀ k : Reg, k ≤ x → Mem.read t.mem (dataAddr s k.val) = s.v[k]) ∧
      (∀ a, a ∉ (List.range (x.val + 1)).map (dataAddr s) → Mem.read t.mem a = Mem.read s.mem a) ∧
      Completes [.mem] s t

/-- `LD Vx, [I]` (R145), where its addresses are in range (by D7): `V[k]` from `I + k` for `0 <= k <= X`, the other
registers, memory and `I` kept. -/
def Obligations.BulkLoadReadsRegistersInOrder : Prop :=
  ∀ (x : Reg) (s : State), DataInRange s (x.val + 1) →
    ∃ t, exec (.loadRegs x) s = .next t ∧
      (∀ k : Reg, t.v[k] = if k ≤ x then Mem.read s.mem (dataAddr s k.val) else s.v[k]) ∧
      Completes [.v] s t

/-- A store followed by a load with the same `I` and `X` restores `V[0..X]`, whatever the registers held in between
(R145, corner cases). -/
def Obligations.LoadAfterStoreRestoresRegisters : Prop :=
  ∀ (x : Reg) (s t : State) (w : Vector Byte 16), s.Running → exec (.storeRegs x) s = .next t → t.Running →
    ∃ u, exec (.loadRegs x) { t with v := w } = .next u ∧ ∀ k : Reg, u.v[k] = if k ≤ x then s.v[k] else w[k]

/-- With `ADDR_POLICY = fault` each of the four data-accessing instructions takes `AddressOutOfRange` with the lowest
address out of range when its last byte lies at 4096 or above, and changes nothing else (R185 by D7; the state after
it by D16). -/
def Obligations.DataPastMemoryIsFatal : Prop :=
  ∀ (s : State), s.cfg.addrPolicy = .fault →
    (∀ x : Reg, 4096 ≤ s.idx.toNat + 2 →
      exec (.ldB x) s = .next { s with status := .faulted (.addressOutOfRange (max 4096 s.idx.toNat)) }) ∧
    (∀ x : Reg, 4096 ≤ s.idx.toNat + x.val →
      exec (.storeRegs x) s = .next { s with status := .faulted (.addressOutOfRange (max 4096 s.idx.toNat)) }) ∧
    (∀ x : Reg, 4096 ≤ s.idx.toNat + x.val →
      exec (.loadRegs x) s = .next { s with status := .faulted (.addressOutOfRange (max 4096 s.idx.toNat)) }) ∧
    (∀ (x y : Reg) (n : Fin 16), 0 < n.val → 4096 ≤ s.idx.toNat + n.val - 1 →
      exec (.drw x y n) s = .next { s with status := .faulted (.addressOutOfRange (max 4096 s.idx.toNat)) })

/-- An instruction stored right after the storing instruction is what the next fetch reads: `V[0]` in bits 15:8,
`V[1]` in bits 7:0 (R54 by D1, R64). -/
def Obligations.StoredCodeIsFetchedNext : Prop :=
  ∀ (x : Reg) (s t : State), s.Running → 1 ≤ x → s.idx = s.pc + 2 → s.pc.toNat + 4 ≤ 4096 →
    exec (.storeRegs x) s = .next t → t.Running →
    wordAtPc t = s.v[(0 : Reg)] ++ s.v[(1 : Reg)] ∧ t.fetchBytes = .ok [s.v[(0 : Reg)], s.v[(1 : Reg)]]

/-! ### Draw -/

/-- `DRW Vx, Vy, N` (R150, R151, R152, R153; by D7, D10, D11, D12), where its bytes are in range: exactly the cells
under a set sprite bit are inverted, `VF` is 1 exactly when such a cell was on, and nothing else changes; the start
coordinates are the old register values modulo 64 and 32. It holds for `N = 0` too: no cell, `VF` 0. -/
def Obligations.DrawInvertsTheCoveredCells : Prop :=
  ∀ (x y : Reg) (n : Fin 16) (s : State), DataInRange s n.val →
    ∃ t, exec (.drw x y n) s = .next t ∧
      (∀ cx cy, (SpriteCovers s ((s.v[x]).toNat % 64) ((s.v[y]).toNat % 32) n.val cx cy →
          Framebuffer.cell t.fb cx cy = !Framebuffer.cell s.fb cx cy) ∧
        (¬SpriteCovers s ((s.v[x]).toNat % 64) ((s.v[y]).toNat % 32) n.val cx cy →
          Framebuffer.cell t.fb cx cy = Framebuffer.cell s.fb cx cy)) ∧
      ((∃ cx cy, SpriteCovers s ((s.v[x]).toNat % 64) ((s.v[y]).toNat % 32) n.val cx cy ∧
          Framebuffer.cell s.fb cx cy = true) → t.v[(15 : Reg)] = 1) ∧
      ((¬∃ cx cy, SpriteCovers s ((s.v[x]).toNat % 64) ((s.v[y]).toNat % 32) n.val cx cy ∧
          Framebuffer.cell s.fb cx cy = true) → t.v[(15 : Reg)] = 0) ∧
      RegsKeptBut [15] s t ∧ Completes [.v, .fb] s t

/-- Drawing the identical sprite twice at the same coordinates gives the old framebuffer back; on a blank one the
first draw sets the flag to 0, and the second to 1 if the sprite has a pixel on the display (R150, example of source
section 8). `X` and `Y` are not 15, since the first draw rewrites `VF`. -/
def Obligations.DrawingTwiceRestoresTheFramebuffer : Prop :=
  ∀ (x y : Reg) (n : Fin 16) (s t u : State), x ≠ 15 → y ≠ 15 → DataInRange s n.val →
    exec (.drw x y n) s = .next t → exec (.drw x y n) t = .next u →
    (∀ cx cy, Framebuffer.cell u.fb cx cy = Framebuffer.cell s.fb cx cy) ∧
    ((∀ cx cy, Framebuffer.cell s.fb cx cy = false) → t.v[(15 : Reg)] = 0 ∧
      ((∃ cx cy, SpriteCovers s ((s.v[x]).toNat % 64) ((s.v[y]).toNat % 32) n.val cx cy) →
        u.v[(15 : Reg)] = 1))

/-- A sprite wholly inside the display draws the same under both values of `DRAW_EDGE` (R151, last sentence). -/
def Obligations.EdgePoliciesAgreeInsideTheDisplay : Prop :=
  ∀ (x y : Reg) (n : Fin 16) (s t u : State),
    (s.v[x]).toNat % 64 ≤ 56 → (s.v[y]).toNat % 32 + n.val ≤ 32 →
    exec (.drw x y n) { s with cfg := { s.cfg with drawEdge := .wrap } } = .next t →
    exec (.drw x y n) { s with cfg := { s.cfg with drawEdge := .clip } } = .next u →
    KeptBut [.cfg] t u

/-! ### Keypad, random source, timers -/

/-- `SKP Vx` and `SKNP Vx` (R160, R161) with `V[X] <= 15`: `pc` moves by 4 when the key is (is not) pressed, by 2
otherwise; the keypad and everything else but the tick is kept. -/
def Obligations.KeySkipsTestTheNamedKey : Prop :=
  ∀ (x : Reg) (s : State) (k : Fin 16), (s.v[x]).toNat = k.val →
    (∃ t, exec (.skp x) s = .next t ∧ t.pc = (if s.keys[k] = true then s.pc + 4 else s.pc + 2) ∧
      TickedFrom s.dt s.st t ∧ KeptBut [.pc, .dt, .st] s t) ∧
    (∃ t, exec (.sknp x) s = .next t ∧ t.pc = (if s.keys[k] = false then s.pc + 4 else s.pc + 2) ∧
      TickedFrom s.dt s.st t ∧ KeptBut [.pc, .dt, .st] s t)

/-- `SKP Vx` and `SKNP Vx` with `V[X] > 15` take `KeyIndexOutOfRange` with the value, and change nothing else (R186
by D8; the state after it by D16). -/
def Obligations.KeyIndexAboveFifteenIsFatal : Prop :=
  ∀ (x : Reg) (s : State), 15 < (s.v[x]).toNat →
    exec (.skp x) s = .next { s with status := .faulted (.keyIndexOutOfRange s.v[x]) } ∧
    exec (.sknp x) s = .next { s with status := .faulted (.keyIndexOutOfRange s.v[x]) }

/-- `LD Vx, K` (R162): FX0A; with a key pressed the lowest-numbered one goes to `V[X]` and `pc` advances; with none
pressed nothing changes but the tick, `pc` included. -/
def Obligations.KeyWaitTakesTheLowestKeyOrRepeats : Prop :=
  (∀ hasAddImm x, decode hasAddImm (wordXI 0xF x 0x0A) = .ok (.ldVxK x)) ∧
  ∀ (x : Reg) (s : State),
    (∀ k : Fin 16, s.keys[k] = true → (∀ j : Fin 16, j < k → s.keys[j] = false) →
      ∃ t, exec (.ldVxK x) s = .next t ∧ (t.v[x]).toNat = k.val ∧ RegsKeptBut [x] s t ∧ Completes [.v] s t) ∧
    ((∀ j : Fin 16, s.keys[j] = false) →
      ∃ t, exec (.ldVxK x) s = .next t ∧ TickedFrom s.dt s.st t ∧ KeptBut [.dt, .st] s t)

/-- The key-wait miss (R194) is an ordinary completed step: the status stays running, `pc` is left where it was, the
tick runs, and nothing else changes. -/
def Obligations.KeyWaitMissIsAnOrdinaryStep : Prop :=
  ∀ (x : Reg) (s : State), s.Running → s.fetchInstr = .ok (.ldVxK x) → (∀ k : Fin 16, s.keys[k] = false) →
    ∃ t, step s = .next t ∧ t.Running ∧ t.pc = s.pc ∧ TickedFrom s.dt s.st t ∧ KeptBut [.dt, .st] s t

/-- `RND Vx, NN` (R170): the byte the random source answers (a free value, D24, log 7) masked by `NN`, so that no bit
outside the mask is ever set; one byte is consumed, and the old `V[X]` takes no part. It says nothing of which byte. -/
def Obligations.RandomByteIsMasked : Prop :=
  ∀ (x : Reg) (nn : Byte) (s : State), ∃ t, exec (.rnd x nn) s = .next t ∧
    t.v[x] = Config.rnd s.draws &&& nn ∧ (∀ k, nn.getLsbD k = false → (t.v[x]).getLsbD k = false) ∧
    t.draws = s.draws + 1 ∧ RegsKeptBut [x] s t ∧ Completes [.v, .draws] s t

/-- `LD Vx, DT`, `LD DT, Vx`, `LD ST, Vx` (R175, R176, R177): FX07, FX15, FX18; the read sees the value before this
step's tick, a written timer is counted down by it. -/
def Obligations.TimerReadsAndWrites : Prop :=
  (∀ hasAddImm x, decode hasAddImm (wordXI 0xF x 0x07) = .ok (.ldVxDt x)) ∧
  (∀ hasAddImm x, decode hasAddImm (wordXI 0xF x 0x15) = .ok (.ldDtVx x)) ∧
  (∀ hasAddImm x, decode hasAddImm (wordXI 0xF x 0x18) = .ok (.ldStVx x)) ∧
  ∀ (x : Reg) (s : State),
    (∃ t, exec (.ldVxDt x) s = .next t ∧ t.v[x] = s.dt ∧ RegsKeptBut [x] s t ∧ Completes [.v] s t) ∧
    (∃ t, exec (.ldDtVx x) s = .next t ∧ t.pc = s.pc + 2 ∧ TickedFrom s.v[x] s.st t ∧
      KeptBut [.pc, .dt, .st] s t) ∧
    (∃ t, exec (.ldStVx x) s = .next t ∧ t.pc = s.pc + 2 ∧ TickedFrom s.dt s.v[x] t ∧
      KeptBut [.pc, .dt, .st] s t)

/-- The timer tick (R78): every instruction that completes ends with one tick of both timers, of the value just
written where the instruction writes a timer; one that raises leaves both as they were (that part by D16). -/
def Obligations.EveryCompletedInstructionTicksOnce : Prop :=
  ∀ (i : Instr) (s t : State), s.Running → exec i s = .next t →
    (t.Running → TickedFrom (match i with | .ldDtVx x => s.v[x] | _ => s.dt)
      (match i with | .ldStVx x => s.v[x] | _ => s.st) t) ∧
    (¬t.Running → t.dt = s.dt ∧ t.st = s.st)

/-! ### Whole-machine rules -/

/-- The invariant: every step keeps memory in its canonical form, all listed addresses below 4096 (log 8). -/
def Obligations.EveryStepKeepsMemoryCanonical : Prop :=
  ∀ (s t : State), s.Inv → step s = .next t → t.Inv

/-- The invariant holds at reset (log 8). -/
def Obligations.ResetMemoryIsCanonical : Prop := State.reset.Inv

/-- No step writes the keypad (R25) or the machine's parameters (R9, log 1). -/
def Obligations.NoStepWritesKeypadOrParameters : Prop :=
  ∀ (s t : State), step s = .next t → t.keys = s.keys ∧ t.cfg = s.cfg

/-- Only `CLS` and `DRW` write the framebuffer (R26, R65). -/
def Obligations.OnlyClsAndDrwWriteTheFramebuffer : Prop :=
  ∀ (i : Instr) (s t : State), exec i s = .next t → (i ≠ .cls ∧ ∀ x y n, i ≠ .drw x y n) →
    t.fb = s.fb

/-- Only `LD B` and `LD [I], Vx` write memory (R34, R65). -/
def Obligations.OnlyTheTwoStoresWriteMemory : Prop :=
  ∀ (i : Instr) (s t : State), exec i s = .next t → (∀ x, i ≠ .ldB x ∧ i ≠ .storeRegs x) →
    t.mem = s.mem

/-- Only `CALL` and `RET` touch the stack and its depth (R24, R65), and they move the depth by one. -/
def Obligations.OnlyCallAndRetTouchTheStack : Prop :=
  ∀ (i : Instr) (s t : State), exec i s = .next t →
    ((∀ nnn, i ≠ .call nnn) → t.stack = s.stack) ∧
    ((∀ nnn, i ≠ .call nnn) → i ≠ .ret → t.sp = s.sp) ∧
    (t.sp.val = s.sp.val ∨ t.sp.val = s.sp.val + 1 ∨ t.sp.val + 1 = s.sp.val)

/-- The list of the writers of `VF` is complete (R21): an instruction that is none of the six flag writers and does
not name `VF` as its destination (a bulk load: does not reach it) leaves it as it was. -/
def Obligations.OnlyTheSixFlagWritersWriteVf : Prop :=
  ∀ (i : Instr) (s t : State), exec i s = .next t →
    (match i with
      | .addReg _ _ | .subReg _ _ | .shr _ _ | .subnReg _ _ | .shl _ _ | .drw _ _ _ => False
      | .ldImm x _ | .addImm x _ | .ldReg x _ | .orReg x _ | .andReg x _ | .xorReg x _ | .rnd x _
      | .ldVxDt x | .ldVxK x | .loadRegs x => x ≠ 15
      | _ => True) →
    t.v[(15 : Reg)] = s.v[(15 : Reg)]

/-- Only `LD I`, `ADD I` and `LD F` change `I`; no memory-accessing instruction does (R22, R146). -/
def Obligations.OnlyThreeInstructionsWriteTheIndex : Prop :=
  ∀ (i : Instr) (s t : State), exec i s = .next t →
    ((∀ nnn, i ≠ .ldI nnn) ∧ ∀ x, i ≠ .addI x ∧ i ≠ .ldF x) → t.idx = s.idx

/-- A byte of the random source is consumed by `RND` and by no other instruction (R170; the counter is log 7). -/
def Obligations.OnlyRndDrawsARandomByte : Prop :=
  ∀ (i : Instr) (s t : State), exec i s = .next t → (∀ x nn, i ≠ .rnd x nn) → t.draws = s.draws

/-- The table of `pc` after a completed instruction (R23): the target, the popped entry, 4 further for a skip whose
condition holds, nothing for a key-wait with no key pressed, and 2 for every other outcome (modulo 65536 by D28). -/
def Obligations.PcAfterEveryInstruction : Prop :=
  ∀ (i : Instr) (s t : State), s.Running → exec i s = .next t → t.Running →
    match i with
    | .jp nnn | .call nnn => t.pc.toNat = nnn.toNat
    | .jpV0 nnn => t.pc.toNat = nnn.toNat + (s.v[(0 : Reg)]).toNat
    | .ret => ∃ h : 0 < s.sp.val, t.pc = s.stack[s.sp.val - 1]'(by omega)
    | .seImm x nn => t.pc = if s.v[x] = nn then s.pc + 4 else s.pc + 2
    | .sneImm x nn => t.pc = if s.v[x] = nn then s.pc + 2 else s.pc + 4
    | .seReg x y => t.pc = if s.v[x] = s.v[y] then s.pc + 4 else s.pc + 2
    | .sneReg x y => t.pc = if s.v[x] = s.v[y] then s.pc + 2 else s.pc + 4
    | .skp x => ∃ h : (s.v[x]).toNat < 16, t.pc = if s.keys[(s.v[x]).toNat] = true then s.pc + 4 else s.pc + 2
    | .sknp x => ∃ h : (s.v[x]).toNat < 16, t.pc = if s.keys[(s.v[x]).toNat] = true then s.pc + 2 else s.pc + 4
    | .ldVxK _ => t.pc = if ∃ k : Fin 16, s.keys[k] = true then s.pc + 2 else s.pc
    | _ => t.pc = s.pc + 2

/-- The final state R214 suggests (D26): at a jump to itself with both timers zero, no step changes anything. -/
def Obligations.FinalStatesNeverChange : Prop :=
  ∀ s : State, s.Final → ∀ k, Sys2Proof.core.run k s = .next s

/-- `set_key(k, pressed)` writes that flag and nothing else (R200; legal arguments only, D29, log 9). -/
def Obligations.SetKeyWritesOneFlag : Prop :=
  ∀ (k : Fin 16) (pressed : Bool) (s : State),
    (∀ j : Fin 16, (setKey k pressed s).keys[j] = if j = k then pressed else s.keys[j]) ∧
    KeptBut [.keys] s (setKey k pressed s)
end

