-- ==== Sys2Proof/Laws/Decode.lean ====
section
/-!
SUPPORT. The fields of the words the encoder builds (R71, R73): each field reads back, and each word is its fields.
-/

namespace Sys2Proof

/-! ### Fields as numbers -/

theorem opOf_toNat (w : Word) : (opOf w).toNat = w.toNat / 4096 := by
  have := w.isLt
  rw [opOf, BitVec.extractLsb'_toNat, Nat.shiftRight_eq_div_pow]
  omega

theorem xOf_val (w : Word) : (xOf w).val = w.toNat / 256 % 16 := by
  have h : (xOf w).val = w.toNat >>> 8 % 2 ^ 4 := BitVec.extractLsb'_toNat 8 4 w
  simp [h, Nat.shiftRight_eq_div_pow]

theorem yOf_val (w : Word) : (yOf w).val = w.toNat / 16 % 16 := by
  have h : (yOf w).val = w.toNat >>> 4 % 2 ^ 4 := BitVec.extractLsb'_toNat 4 4 w
  simp [h, Nat.shiftRight_eq_div_pow]

theorem nOf_toNat (w : Word) : (nOf w).toNat = w.toNat % 16 := by
  rw [nOf, BitVec.extractLsb'_toNat, Nat.shiftRight_zero]

theorem nnOf_toNat (w : Word) : (nnOf w).toNat = w.toNat % 256 := by
  rw [nnOf, BitVec.extractLsb'_toNat, Nat.shiftRight_zero]

theorem nnnOf_toNat (w : Word) : (nnnOf w).toNat = w.toNat % 4096 := by
  rw [nnnOf, BitVec.extractLsb'_toNat, Nat.shiftRight_zero]

/-- A concatenation as a number: the high part times the size of the low one, plus the low one. -/
theorem append_toNat {m n : Nat} (a : BitVec m) (b : BitVec n) :
    (a ++ b).toNat = a.toNat * 2 ^ n + b.toNat := by
  rw [BitVec.toNat_append, ← Nat.shiftLeft_add_eq_or_of_lt b.isLt, Nat.shiftLeft_eq]

theorem wordA_toNat (op : Nibble) (nnn : Imm12) : (wordA op nnn).toNat = op.toNat * 4096 + nnn.toNat :=
  append_toNat op nnn

theorem wordXI_toNat (op : Nibble) (x : Reg) (nn : Byte) :
    (wordXI op x nn).toNat = op.toNat * 4096 + x.val * 256 + nn.toNat := by
  have h : (wordXI op x nn).toNat = op.toNat * 4096 + (x.val * 256 + nn.toNat) :=
    (append_toNat op (BitVec.ofFin (w := 4) x ++ nn)).trans
      (congrArg (op.toNat * 4096 + ·) (append_toNat (BitVec.ofFin (w := 4) x) nn))
  exact h.trans (Nat.add_assoc _ _ _).symm

theorem wordXYN_toNat (op : Nibble) (x y : Reg) (n : Nibble) :
    (wordXYN op x y n).toNat = op.toNat * 4096 + x.val * 256 + y.val * 16 + n.toNat := by
  have h : (wordXYN op x y n).toNat = op.toNat * 4096 + (x.val * 256 + (y.val * 16 + n.toNat)) :=
    (append_toNat op (BitVec.ofFin (w := 4) x ++ (BitVec.ofFin (w := 4) y ++ n))).trans
      (congrArg (op.toNat * 4096 + ·) ((append_toNat (BitVec.ofFin (w := 4) x) (BitVec.ofFin (w := 4) y ++ n)).trans
        (congrArg (x.val * 256 + ·) (append_toNat (BitVec.ofFin (w := 4) y) n))))
  exact h.trans (by rw [Nat.add_assoc, Nat.add_assoc])

/-! ### The fields of a built word -/

@[simp] theorem opOf_wordA (op : Nibble) (nnn : Imm12) : opOf (wordA op nnn) = op := by
  have := nnn.isLt
  exact BitVec.eq_of_toNat_eq (by rw [opOf_toNat, wordA_toNat]; omega)

@[simp] theorem nnnOf_wordA (op : Nibble) (nnn : Imm12) : nnnOf (wordA op nnn) = nnn := by
  have := nnn.isLt
  exact BitVec.eq_of_toNat_eq (by rw [nnnOf_toNat, wordA_toNat]; omega)

@[simp] theorem opOf_wordXI (op : Nibble) (x : Reg) (nn : Byte) : opOf (wordXI op x nn) = op := by
  have := x.isLt
  have := nn.isLt
  exact BitVec.eq_of_toNat_eq (by rw [opOf_toNat, wordXI_toNat]; omega)

@[simp] theorem xOf_wordXI (op : Nibble) (x : Reg) (nn : Byte) : xOf (wordXI op x nn) = x := by
  have := x.isLt
  have := nn.isLt
  exact Fin.ext (by rw [xOf_val, wordXI_toNat]; omega)

@[simp] theorem nnOf_wordXI (op : Nibble) (x : Reg) (nn : Byte) : nnOf (wordXI op x nn) = nn := by
  have := x.isLt
  have := nn.isLt
  exact BitVec.eq_of_toNat_eq (by rw [nnOf_toNat, wordXI_toNat]; omega)

@[simp] theorem opOf_wordXYN (op : Nibble) (x y : Reg) (n : Nibble) : opOf (wordXYN op x y n) = op := by
  have := x.isLt
  have := y.isLt
  have := n.isLt
  exact BitVec.eq_of_toNat_eq (by rw [opOf_toNat, wordXYN_toNat]; omega)

@[simp] theorem xOf_wordXYN (op : Nibble) (x y : Reg) (n : Nibble) : xOf (wordXYN op x y n) = x := by
  have := x.isLt
  have := y.isLt
  have := n.isLt
  exact Fin.ext (by rw [xOf_val, wordXYN_toNat]; omega)

@[simp] theorem yOf_wordXYN (op : Nibble) (x y : Reg) (n : Nibble) : yOf (wordXYN op x y n) = y := by
  have := x.isLt
  have := y.isLt
  have := n.isLt
  exact Fin.ext (by rw [yOf_val, wordXYN_toNat]; omega)

@[simp] theorem nOf_wordXYN (op : Nibble) (x y : Reg) (n : Nibble) : nOf (wordXYN op x y n) = n := by
  have := x.isLt
  have := y.isLt
  have := n.isLt
  exact BitVec.eq_of_toNat_eq (by rw [nOf_toNat, wordXYN_toNat]; omega)

/-- The two bytes of a word, put together again, are the word (R54). -/
theorem wordOfBytes_split (w : Word) : wordOfBytes (w.extractLsb' 8 8) (w.extractLsb' 0 8) = w := by
  have := w.isLt
  apply BitVec.eq_of_toNat_eq
  have h := append_toNat (w.extractLsb' 8 8) (w.extractLsb' 0 8)
  rw [BitVec.extractLsb'_toNat, BitVec.extractLsb'_toNat, Nat.shiftRight_eq_div_pow, Nat.shiftRight_zero] at h
  exact h.trans (by omega)

theorem wordOfBytes_toNat (b0 b1 : Byte) : (wordOfBytes b0 b1).toNat = b0.toNat * 256 + b1.toNat :=
  append_toNat b0 b1

end Sys2Proof
end

