-- ==== Sys2Proof/Laws/State.lean ====
section
/-!
SUPPORT. One lemma per field per state update: what the update leaves in that field. The updates are the operations
of Machine/Ops.lean, Flags.lean, Draw.lean and Random.lean.
-/

namespace Sys2Proof.Machine

@[simp] theorem State.setReg_v (s : State) (x : Reg) (b : Byte) : (s.setReg x b).v = s.v.set x b := rfl
@[simp] theorem State.setReg_idx (s : State) (x : Reg) (b : Byte) : (s.setReg x b).idx = s.idx := rfl
@[simp] theorem State.setReg_pc (s : State) (x : Reg) (b : Byte) : (s.setReg x b).pc = s.pc := rfl
@[simp] theorem State.setReg_sp (s : State) (x : Reg) (b : Byte) : (s.setReg x b).sp = s.sp := rfl
@[simp] theorem State.setReg_stack (s : State) (x : Reg) (b : Byte) : (s.setReg x b).stack = s.stack := rfl
@[simp] theorem State.setReg_dt (s : State) (x : Reg) (b : Byte) : (s.setReg x b).dt = s.dt := rfl
@[simp] theorem State.setReg_st (s : State) (x : Reg) (b : Byte) : (s.setReg x b).st = s.st := rfl
@[simp] theorem State.setReg_keys (s : State) (x : Reg) (b : Byte) : (s.setReg x b).keys = s.keys := rfl
@[simp] theorem State.setReg_fb (s : State) (x : Reg) (b : Byte) : (s.setReg x b).fb = s.fb := rfl
@[simp] theorem State.setReg_mem (s : State) (x : Reg) (b : Byte) : (s.setReg x b).mem = s.mem := rfl
@[simp] theorem State.setReg_status (s : State) (x : Reg) (b : Byte) : (s.setReg x b).status = s.status := rfl
@[simp] theorem State.setReg_cfg (s : State) (x : Reg) (b : Byte) : (s.setReg x b).cfg = s.cfg := rfl
@[simp] theorem State.setReg_draws (s : State) (x : Reg) (b : Byte) : (s.setReg x b).draws = s.draws := rfl

@[simp] theorem State.setIdx_v (s : State) (w : Word) : (s.setIdx w).v = s.v := rfl
@[simp] theorem State.setIdx_idx (s : State) (w : Word) : (s.setIdx w).idx = w := rfl
@[simp] theorem State.setIdx_pc (s : State) (w : Word) : (s.setIdx w).pc = s.pc := rfl
@[simp] theorem State.setIdx_sp (s : State) (w : Word) : (s.setIdx w).sp = s.sp := rfl
@[simp] theorem State.setIdx_stack (s : State) (w : Word) : (s.setIdx w).stack = s.stack := rfl
@[simp] theorem State.setIdx_dt (s : State) (w : Word) : (s.setIdx w).dt = s.dt := rfl
@[simp] theorem State.setIdx_st (s : State) (w : Word) : (s.setIdx w).st = s.st := rfl
@[simp] theorem State.setIdx_keys (s : State) (w : Word) : (s.setIdx w).keys = s.keys := rfl
@[simp] theorem State.setIdx_fb (s : State) (w : Word) : (s.setIdx w).fb = s.fb := rfl
@[simp] theorem State.setIdx_mem (s : State) (w : Word) : (s.setIdx w).mem = s.mem := rfl
@[simp] theorem State.setIdx_status (s : State) (w : Word) : (s.setIdx w).status = s.status := rfl
@[simp] theorem State.setIdx_cfg (s : State) (w : Word) : (s.setIdx w).cfg = s.cfg := rfl
@[simp] theorem State.setIdx_draws (s : State) (w : Word) : (s.setIdx w).draws = s.draws := rfl

@[simp] theorem State.setPc_v (s : State) (w : Word) : (s.setPc w).v = s.v := rfl
@[simp] theorem State.setPc_idx (s : State) (w : Word) : (s.setPc w).idx = s.idx := rfl
@[simp] theorem State.setPc_pc (s : State) (w : Word) : (s.setPc w).pc = w := rfl
@[simp] theorem State.setPc_sp (s : State) (w : Word) : (s.setPc w).sp = s.sp := rfl
@[simp] theorem State.setPc_stack (s : State) (w : Word) : (s.setPc w).stack = s.stack := rfl
@[simp] theorem State.setPc_dt (s : State) (w : Word) : (s.setPc w).dt = s.dt := rfl
@[simp] theorem State.setPc_st (s : State) (w : Word) : (s.setPc w).st = s.st := rfl
@[simp] theorem State.setPc_keys (s : State) (w : Word) : (s.setPc w).keys = s.keys := rfl
@[simp] theorem State.setPc_fb (s : State) (w : Word) : (s.setPc w).fb = s.fb := rfl
@[simp] theorem State.setPc_mem (s : State) (w : Word) : (s.setPc w).mem = s.mem := rfl
@[simp] theorem State.setPc_status (s : State) (w : Word) : (s.setPc w).status = s.status := rfl
@[simp] theorem State.setPc_cfg (s : State) (w : Word) : (s.setPc w).cfg = s.cfg := rfl
@[simp] theorem State.setPc_draws (s : State) (w : Word) : (s.setPc w).draws = s.draws := rfl

@[simp] theorem State.setDt_v (s : State) (b : Byte) : (s.setDt b).v = s.v := rfl
@[simp] theorem State.setDt_idx (s : State) (b : Byte) : (s.setDt b).idx = s.idx := rfl
@[simp] theorem State.setDt_pc (s : State) (b : Byte) : (s.setDt b).pc = s.pc := rfl
@[simp] theorem State.setDt_sp (s : State) (b : Byte) : (s.setDt b).sp = s.sp := rfl
@[simp] theorem State.setDt_stack (s : State) (b : Byte) : (s.setDt b).stack = s.stack := rfl
@[simp] theorem State.setDt_dt (s : State) (b : Byte) : (s.setDt b).dt = b := rfl
@[simp] theorem State.setDt_st (s : State) (b : Byte) : (s.setDt b).st = s.st := rfl
@[simp] theorem State.setDt_keys (s : State) (b : Byte) : (s.setDt b).keys = s.keys := rfl
@[simp] theorem State.setDt_fb (s : State) (b : Byte) : (s.setDt b).fb = s.fb := rfl
@[simp] theorem State.setDt_mem (s : State) (b : Byte) : (s.setDt b).mem = s.mem := rfl
@[simp] theorem State.setDt_status (s : State) (b : Byte) : (s.setDt b).status = s.status := rfl
@[simp] theorem State.setDt_cfg (s : State) (b : Byte) : (s.setDt b).cfg = s.cfg := rfl
@[simp] theorem State.setDt_draws (s : State) (b : Byte) : (s.setDt b).draws = s.draws := rfl

@[simp] theorem State.setSt_v (s : State) (b : Byte) : (s.setSt b).v = s.v := rfl
@[simp] theorem State.setSt_idx (s : State) (b : Byte) : (s.setSt b).idx = s.idx := rfl
@[simp] theorem State.setSt_pc (s : State) (b : Byte) : (s.setSt b).pc = s.pc := rfl
@[simp] theorem State.setSt_sp (s : State) (b : Byte) : (s.setSt b).sp = s.sp := rfl
@[simp] theorem State.setSt_stack (s : State) (b : Byte) : (s.setSt b).stack = s.stack := rfl
@[simp] theorem State.setSt_dt (s : State) (b : Byte) : (s.setSt b).dt = s.dt := rfl
@[simp] theorem State.setSt_st (s : State) (b : Byte) : (s.setSt b).st = b := rfl
@[simp] theorem State.setSt_keys (s : State) (b : Byte) : (s.setSt b).keys = s.keys := rfl
@[simp] theorem State.setSt_fb (s : State) (b : Byte) : (s.setSt b).fb = s.fb := rfl
@[simp] theorem State.setSt_mem (s : State) (b : Byte) : (s.setSt b).mem = s.mem := rfl
@[simp] theorem State.setSt_status (s : State) (b : Byte) : (s.setSt b).status = s.status := rfl
@[simp] theorem State.setSt_cfg (s : State) (b : Byte) : (s.setSt b).cfg = s.cfg := rfl
@[simp] theorem State.setSt_draws (s : State) (b : Byte) : (s.setSt b).draws = s.draws := rfl

@[simp] theorem State.setFb_v (s : State) (f : Framebuffer) : (s.setFb f).v = s.v := rfl
@[simp] theorem State.setFb_idx (s : State) (f : Framebuffer) : (s.setFb f).idx = s.idx := rfl
@[simp] theorem State.setFb_pc (s : State) (f : Framebuffer) : (s.setFb f).pc = s.pc := rfl
@[simp] theorem State.setFb_sp (s : State) (f : Framebuffer) : (s.setFb f).sp = s.sp := rfl
@[simp] theorem State.setFb_stack (s : State) (f : Framebuffer) : (s.setFb f).stack = s.stack := rfl
@[simp] theorem State.setFb_dt (s : State) (f : Framebuffer) : (s.setFb f).dt = s.dt := rfl
@[simp] theorem State.setFb_st (s : State) (f : Framebuffer) : (s.setFb f).st = s.st := rfl
@[simp] theorem State.setFb_keys (s : State) (f : Framebuffer) : (s.setFb f).keys = s.keys := rfl
@[simp] theorem State.setFb_fb (s : State) (f : Framebuffer) : (s.setFb f).fb = f := rfl
@[simp] theorem State.setFb_mem (s : State) (f : Framebuffer) : (s.setFb f).mem = s.mem := rfl
@[simp] theorem State.setFb_status (s : State) (f : Framebuffer) : (s.setFb f).status = s.status := rfl
@[simp] theorem State.setFb_cfg (s : State) (f : Framebuffer) : (s.setFb f).cfg = s.cfg := rfl
@[simp] theorem State.setFb_draws (s : State) (f : Framebuffer) : (s.setFb f).draws = s.draws := rfl

@[simp] theorem State.setMem_v (s : State) (m : Memory) : (s.setMem m).v = s.v := rfl
@[simp] theorem State.setMem_idx (s : State) (m : Memory) : (s.setMem m).idx = s.idx := rfl
@[simp] theorem State.setMem_pc (s : State) (m : Memory) : (s.setMem m).pc = s.pc := rfl
@[simp] theorem State.setMem_sp (s : State) (m : Memory) : (s.setMem m).sp = s.sp := rfl
@[simp] theorem State.setMem_stack (s : State) (m : Memory) : (s.setMem m).stack = s.stack := rfl
@[simp] theorem State.setMem_dt (s : State) (m : Memory) : (s.setMem m).dt = s.dt := rfl
@[simp] theorem State.setMem_st (s : State) (m : Memory) : (s.setMem m).st = s.st := rfl
@[simp] theorem State.setMem_keys (s : State) (m : Memory) : (s.setMem m).keys = s.keys := rfl
@[simp] theorem State.setMem_fb (s : State) (m : Memory) : (s.setMem m).fb = s.fb := rfl
@[simp] theorem State.setMem_mem (s : State) (m : Memory) : (s.setMem m).mem = m := rfl
@[simp] theorem State.setMem_status (s : State) (m : Memory) : (s.setMem m).status = s.status := rfl
@[simp] theorem State.setMem_cfg (s : State) (m : Memory) : (s.setMem m).cfg = s.cfg := rfl
@[simp] theorem State.setMem_draws (s : State) (m : Memory) : (s.setMem m).draws = s.draws := rfl

@[simp] theorem State.advance_v (s : State) : (s.advance).v = s.v := rfl
@[simp] theorem State.advance_idx (s : State) : (s.advance).idx = s.idx := rfl
@[simp] theorem State.advance_pc (s : State) : (s.advance).pc = s.pc + 2 := rfl
@[simp] theorem State.advance_sp (s : State) : (s.advance).sp = s.sp := rfl
@[simp] theorem State.advance_stack (s : State) : (s.advance).stack = s.stack := rfl
@[simp] theorem State.advance_dt (s : State) : (s.advance).dt = s.dt := rfl
@[simp] theorem State.advance_st (s : State) : (s.advance).st = s.st := rfl
@[simp] theorem State.advance_keys (s : State) : (s.advance).keys = s.keys := rfl
@[simp] theorem State.advance_fb (s : State) : (s.advance).fb = s.fb := rfl
@[simp] theorem State.advance_mem (s : State) : (s.advance).mem = s.mem := rfl
@[simp] theorem State.advance_status (s : State) : (s.advance).status = s.status := rfl
@[simp] theorem State.advance_cfg (s : State) : (s.advance).cfg = s.cfg := rfl
@[simp] theorem State.advance_draws (s : State) : (s.advance).draws = s.draws := rfl

@[simp] theorem State.tick_v (s : State) : (s.tick).v = s.v := rfl
@[simp] theorem State.tick_idx (s : State) : (s.tick).idx = s.idx := rfl
@[simp] theorem State.tick_pc (s : State) : (s.tick).pc = s.pc := rfl
@[simp] theorem State.tick_sp (s : State) : (s.tick).sp = s.sp := rfl
@[simp] theorem State.tick_stack (s : State) : (s.tick).stack = s.stack := rfl
@[simp] theorem State.tick_dt (s : State) : (s.tick).dt = countDown s.dt := rfl
@[simp] theorem State.tick_st (s : State) : (s.tick).st = countDown s.st := rfl
@[simp] theorem State.tick_keys (s : State) : (s.tick).keys = s.keys := rfl
@[simp] theorem State.tick_fb (s : State) : (s.tick).fb = s.fb := rfl
@[simp] theorem State.tick_mem (s : State) : (s.tick).mem = s.mem := rfl
@[simp] theorem State.tick_status (s : State) : (s.tick).status = s.status := rfl
@[simp] theorem State.tick_cfg (s : State) : (s.tick).cfg = s.cfg := rfl
@[simp] theorem State.tick_draws (s : State) : (s.tick).draws = s.draws := rfl

@[simp] theorem State.takeFault_v (s : State) (c : Cause) : (s.takeFault c).v = s.v := rfl
@[simp] theorem State.takeFault_idx (s : State) (c : Cause) : (s.takeFault c).idx = s.idx := rfl
@[simp] theorem State.takeFault_pc (s : State) (c : Cause) : (s.takeFault c).pc = s.pc := rfl
@[simp] theorem State.takeFault_sp (s : State) (c : Cause) : (s.takeFault c).sp = s.sp := rfl
@[simp] theorem State.takeFault_stack (s : State) (c : Cause) : (s.takeFault c).stack = s.stack := rfl
@[simp] theorem State.takeFault_dt (s : State) (c : Cause) : (s.takeFault c).dt = s.dt := rfl
@[simp] theorem State.takeFault_st (s : State) (c : Cause) : (s.takeFault c).st = s.st := rfl
@[simp] theorem State.takeFault_keys (s : State) (c : Cause) : (s.takeFault c).keys = s.keys := rfl
@[simp] theorem State.takeFault_fb (s : State) (c : Cause) : (s.takeFault c).fb = s.fb := rfl
@[simp] theorem State.takeFault_mem (s : State) (c : Cause) : (s.takeFault c).mem = s.mem := rfl
@[simp] theorem State.takeFault_status (s : State) (c : Cause) : (s.takeFault c).status = .faulted c := rfl
@[simp] theorem State.takeFault_cfg (s : State) (c : Cause) : (s.takeFault c).cfg = s.cfg := rfl
@[simp] theorem State.takeFault_draws (s : State) (c : Cause) : (s.takeFault c).draws = s.draws := rfl

@[simp] theorem State.setFlag_v (s : State) (b : Bool) : (s.setFlag b).v = s.v.set vf (flagByte b) := rfl
@[simp] theorem State.setFlag_idx (s : State) (b : Bool) : (s.setFlag b).idx = s.idx := rfl
@[simp] theorem State.setFlag_pc (s : State) (b : Bool) : (s.setFlag b).pc = s.pc := rfl
@[simp] theorem State.setFlag_sp (s : State) (b : Bool) : (s.setFlag b).sp = s.sp := rfl
@[simp] theorem State.setFlag_stack (s : State) (b : Bool) : (s.setFlag b).stack = s.stack := rfl
@[simp] theorem State.setFlag_dt (s : State) (b : Bool) : (s.setFlag b).dt = s.dt := rfl
@[simp] theorem State.setFlag_st (s : State) (b : Bool) : (s.setFlag b).st = s.st := rfl
@[simp] theorem State.setFlag_keys (s : State) (b : Bool) : (s.setFlag b).keys = s.keys := rfl
@[simp] theorem State.setFlag_fb (s : State) (b : Bool) : (s.setFlag b).fb = s.fb := rfl
@[simp] theorem State.setFlag_mem (s : State) (b : Bool) : (s.setFlag b).mem = s.mem := rfl
@[simp] theorem State.setFlag_status (s : State) (b : Bool) : (s.setFlag b).status = s.status := rfl
@[simp] theorem State.setFlag_cfg (s : State) (b : Bool) : (s.setFlag b).cfg = s.cfg := rfl
@[simp] theorem State.setFlag_draws (s : State) (b : Bool) : (s.setFlag b).draws = s.draws := rfl

@[simp] theorem State.flagThenResult_v (s : State) (x : Reg) (f : Bool) (r : Byte) : (s.flagThenResult x f r).v = (s.v.set vf (flagByte f)).set x r := rfl
@[simp] theorem State.flagThenResult_idx (s : State) (x : Reg) (f : Bool) (r : Byte) : (s.flagThenResult x f r).idx = s.idx := rfl
@[simp] theorem State.flagThenResult_pc (s : State) (x : Reg) (f : Bool) (r : Byte) : (s.flagThenResult x f r).pc = s.pc := rfl
@[simp] theorem State.flagThenResult_sp (s : State) (x : Reg) (f : Bool) (r : Byte) : (s.flagThenResult x f r).sp = s.sp := rfl
@[simp] theorem State.flagThenResult_stack (s : State) (x : Reg) (f : Bool) (r : Byte) : (s.flagThenResult x f r).stack = s.stack := rfl
@[simp] theorem State.flagThenResult_dt (s : State) (x : Reg) (f : Bool) (r : Byte) : (s.flagThenResult x f r).dt = s.dt := rfl
@[simp] theorem State.flagThenResult_st (s : State) (x : Reg) (f : Bool) (r : Byte) : (s.flagThenResult x f r).st = s.st := rfl
@[simp] theorem State.flagThenResult_keys (s : State) (x : Reg) (f : Bool) (r : Byte) : (s.flagThenResult x f r).keys = s.keys := rfl
@[simp] theorem State.flagThenResult_fb (s : State) (x : Reg) (f : Bool) (r : Byte) : (s.flagThenResult x f r).fb = s.fb := rfl
@[simp] theorem State.flagThenResult_mem (s : State) (x : Reg) (f : Bool) (r : Byte) : (s.flagThenResult x f r).mem = s.mem := rfl
@[simp] theorem State.flagThenResult_status (s : State) (x : Reg) (f : Bool) (r : Byte) : (s.flagThenResult x f r).status = s.status := rfl
@[simp] theorem State.flagThenResult_cfg (s : State) (x : Reg) (f : Bool) (r : Byte) : (s.flagThenResult x f r).cfg = s.cfg := rfl
@[simp] theorem State.flagThenResult_draws (s : State) (x : Reg) (f : Bool) (r : Byte) : (s.flagThenResult x f r).draws = s.draws := rfl

@[simp] theorem State.flagThenShift_v (s : State) (x : Reg) (f : Bool) (g : Byte → Byte) : (s.flagThenShift x f g).v = (s.v.set vf (flagByte f)).set x (g ((s.v.set vf (flagByte f))[x])) := rfl
@[simp] theorem State.flagThenShift_idx (s : State) (x : Reg) (f : Bool) (g : Byte → Byte) : (s.flagThenShift x f g).idx = s.idx := rfl
@[simp] theorem State.flagThenShift_pc (s : State) (x : Reg) (f : Bool) (g : Byte → Byte) : (s.flagThenShift x f g).pc = s.pc := rfl
@[simp] theorem State.flagThenShift_sp (s : State) (x : Reg) (f : Bool) (g : Byte → Byte) : (s.flagThenShift x f g).sp = s.sp := rfl
@[simp] theorem State.flagThenShift_stack (s : State) (x : Reg) (f : Bool) (g : Byte → Byte) : (s.flagThenShift x f g).stack = s.stack := rfl
@[simp] theorem State.flagThenShift_dt (s : State) (x : Reg) (f : Bool) (g : Byte → Byte) : (s.flagThenShift x f g).dt = s.dt := rfl
@[simp] theorem State.flagThenShift_st (s : State) (x : Reg) (f : Bool) (g : Byte → Byte) : (s.flagThenShift x f g).st = s.st := rfl
@[simp] theorem State.flagThenShift_keys (s : State) (x : Reg) (f : Bool) (g : Byte → Byte) : (s.flagThenShift x f g).keys = s.keys := rfl
@[simp] theorem State.flagThenShift_fb (s : State) (x : Reg) (f : Bool) (g : Byte → Byte) : (s.flagThenShift x f g).fb = s.fb := rfl
@[simp] theorem State.flagThenShift_mem (s : State) (x : Reg) (f : Bool) (g : Byte → Byte) : (s.flagThenShift x f g).mem = s.mem := rfl
@[simp] theorem State.flagThenShift_status (s : State) (x : Reg) (f : Bool) (g : Byte → Byte) : (s.flagThenShift x f g).status = s.status := rfl
@[simp] theorem State.flagThenShift_cfg (s : State) (x : Reg) (f : Bool) (g : Byte → Byte) : (s.flagThenShift x f g).cfg = s.cfg := rfl
@[simp] theorem State.flagThenShift_draws (s : State) (x : Reg) (f : Bool) (g : Byte → Byte) : (s.flagThenShift x f g).draws = s.draws := rfl

@[simp] theorem State.maskInto_v (s : State) (x : Reg) (nn r : Byte) : (s.maskInto x nn r).v = s.v.set x (r &&& nn) := rfl
@[simp] theorem State.maskInto_idx (s : State) (x : Reg) (nn r : Byte) : (s.maskInto x nn r).idx = s.idx := rfl
@[simp] theorem State.maskInto_pc (s : State) (x : Reg) (nn r : Byte) : (s.maskInto x nn r).pc = s.pc := rfl
@[simp] theorem State.maskInto_sp (s : State) (x : Reg) (nn r : Byte) : (s.maskInto x nn r).sp = s.sp := rfl
@[simp] theorem State.maskInto_stack (s : State) (x : Reg) (nn r : Byte) : (s.maskInto x nn r).stack = s.stack := rfl
@[simp] theorem State.maskInto_dt (s : State) (x : Reg) (nn r : Byte) : (s.maskInto x nn r).dt = s.dt := rfl
@[simp] theorem State.maskInto_st (s : State) (x : Reg) (nn r : Byte) : (s.maskInto x nn r).st = s.st := rfl
@[simp] theorem State.maskInto_keys (s : State) (x : Reg) (nn r : Byte) : (s.maskInto x nn r).keys = s.keys := rfl
@[simp] theorem State.maskInto_fb (s : State) (x : Reg) (nn r : Byte) : (s.maskInto x nn r).fb = s.fb := rfl
@[simp] theorem State.maskInto_mem (s : State) (x : Reg) (nn r : Byte) : (s.maskInto x nn r).mem = s.mem := rfl
@[simp] theorem State.maskInto_status (s : State) (x : Reg) (nn r : Byte) : (s.maskInto x nn r).status = s.status := rfl
@[simp] theorem State.maskInto_cfg (s : State) (x : Reg) (nn r : Byte) : (s.maskInto x nn r).cfg = s.cfg := rfl
@[simp] theorem State.maskInto_draws (s : State) (x : Reg) (nn r : Byte) : (s.maskInto x nn r).draws = s.draws := rfl

@[simp] theorem State.putCanvas_v (s : State) (d : Canvas) : (s.putCanvas d).v = s.v.set vf (flagByte d.collided) := rfl
@[simp] theorem State.putCanvas_idx (s : State) (d : Canvas) : (s.putCanvas d).idx = s.idx := rfl
@[simp] theorem State.putCanvas_pc (s : State) (d : Canvas) : (s.putCanvas d).pc = s.pc := rfl
@[simp] theorem State.putCanvas_sp (s : State) (d : Canvas) : (s.putCanvas d).sp = s.sp := rfl
@[simp] theorem State.putCanvas_stack (s : State) (d : Canvas) : (s.putCanvas d).stack = s.stack := rfl
@[simp] theorem State.putCanvas_dt (s : State) (d : Canvas) : (s.putCanvas d).dt = s.dt := rfl
@[simp] theorem State.putCanvas_st (s : State) (d : Canvas) : (s.putCanvas d).st = s.st := rfl
@[simp] theorem State.putCanvas_keys (s : State) (d : Canvas) : (s.putCanvas d).keys = s.keys := rfl
@[simp] theorem State.putCanvas_fb (s : State) (d : Canvas) : (s.putCanvas d).fb = d.fb := rfl
@[simp] theorem State.putCanvas_mem (s : State) (d : Canvas) : (s.putCanvas d).mem = s.mem := rfl
@[simp] theorem State.putCanvas_status (s : State) (d : Canvas) : (s.putCanvas d).status = s.status := rfl
@[simp] theorem State.putCanvas_cfg (s : State) (d : Canvas) : (s.putCanvas d).cfg = s.cfg := rfl
@[simp] theorem State.putCanvas_draws (s : State) (d : Canvas) : (s.putCanvas d).draws = s.draws := rfl

@[simp] theorem State.skipIf_v (s : State) (c : Bool) : (s.skipIf c).v = s.v := by cases c <;> rfl
@[simp] theorem State.skipIf_idx (s : State) (c : Bool) : (s.skipIf c).idx = s.idx := by cases c <;> rfl
@[simp] theorem State.skipIf_pc (s : State) (c : Bool) : (s.skipIf c).pc = if c then s.pc + 2 else s.pc := by cases c <;> rfl
@[simp] theorem State.skipIf_sp (s : State) (c : Bool) : (s.skipIf c).sp = s.sp := by cases c <;> rfl
@[simp] theorem State.skipIf_stack (s : State) (c : Bool) : (s.skipIf c).stack = s.stack := by cases c <;> rfl
@[simp] theorem State.skipIf_dt (s : State) (c : Bool) : (s.skipIf c).dt = s.dt := by cases c <;> rfl
@[simp] theorem State.skipIf_st (s : State) (c : Bool) : (s.skipIf c).st = s.st := by cases c <;> rfl
@[simp] theorem State.skipIf_keys (s : State) (c : Bool) : (s.skipIf c).keys = s.keys := by cases c <;> rfl
@[simp] theorem State.skipIf_fb (s : State) (c : Bool) : (s.skipIf c).fb = s.fb := by cases c <;> rfl
@[simp] theorem State.skipIf_mem (s : State) (c : Bool) : (s.skipIf c).mem = s.mem := by cases c <;> rfl
@[simp] theorem State.skipIf_status (s : State) (c : Bool) : (s.skipIf c).status = s.status := by cases c <;> rfl
@[simp] theorem State.skipIf_cfg (s : State) (c : Bool) : (s.skipIf c).cfg = s.cfg := by cases c <;> rfl
@[simp] theorem State.skipIf_draws (s : State) (c : Bool) : (s.skipIf c).draws = s.draws := by cases c <;> rfl

@[simp] theorem State.draw_snd_v (s : State) : s.draw.2.v = s.v := rfl
@[simp] theorem State.draw_snd_idx (s : State) : s.draw.2.idx = s.idx := rfl
@[simp] theorem State.draw_snd_pc (s : State) : s.draw.2.pc = s.pc := rfl
@[simp] theorem State.draw_snd_sp (s : State) : s.draw.2.sp = s.sp := rfl
@[simp] theorem State.draw_snd_stack (s : State) : s.draw.2.stack = s.stack := rfl
@[simp] theorem State.draw_snd_dt (s : State) : s.draw.2.dt = s.dt := rfl
@[simp] theorem State.draw_snd_st (s : State) : s.draw.2.st = s.st := rfl
@[simp] theorem State.draw_snd_keys (s : State) : s.draw.2.keys = s.keys := rfl
@[simp] theorem State.draw_snd_fb (s : State) : s.draw.2.fb = s.fb := rfl
@[simp] theorem State.draw_snd_mem (s : State) : s.draw.2.mem = s.mem := rfl
@[simp] theorem State.draw_snd_status (s : State) : s.draw.2.status = s.status := rfl
@[simp] theorem State.draw_snd_cfg (s : State) : s.draw.2.cfg = s.cfg := rfl
@[simp] theorem State.draw_snd_draws (s : State) : s.draw.2.draws = s.draws + 1 := rfl
@[simp] theorem State.draw_fst (s : State) : s.draw.1 = Config.rnd s.draws := rfl

theorem State.reg_eq (s : State) (x : Reg) : s.reg x = s.v[x] := rfl

end Sys2Proof.Machine
end

