-- ==== Sys2Proof/Laws/Memory.lean ====
section
/-!
SUPPORT. The memory: a read after a write, the canonical form kept by every operation, and effective addresses.
-/

namespace Sys2Proof.Machine

/-! ### Reads after writes -/

@[simp] theorem Mem.read_nil (a : Nat) : Mem.read [] a = Mem.unlisted a := rfl

theorem Mem.read_erase (m : Memory) (a a' : Nat) :
    Mem.read (Mem.erase m a) a' = if a' = a then Mem.unlisted a else Mem.read m a' := by
  induction m with
  | nil => simp [Mem.erase]; rintro rfl; rfl
  | cons c m ih =>
    obtain ⟨k, b⟩ := c
    by_cases hk : k = a
    · subst hk
      have : Mem.erase ((k, b) :: m) k = Mem.erase m k := by simp [Mem.erase]
      rw [this, ih]
      by_cases h : a' = k <;> simp [Mem.read, h]
    · have : Mem.erase ((k, b) :: m) a = (k, b) :: Mem.erase m a := by simp [Mem.erase, hk]
      rw [this, Mem.read, Mem.read, ih]
      by_cases h : a' = a
      · subst h; simp [Ne.symm hk]
      · simp [h]

theorem Mem.read_insert (m : Memory) (a : Nat) (b : Byte) (a' : Nat)
    (ha : ∀ c ∈ m, c.1 ≠ a) :
    Mem.read (Mem.insert a b m) a' = if a' = a then b else Mem.read m a' := by
  induction m with
  | nil => simp [Mem.insert, Mem.read]
  | cons c m ih =>
    obtain ⟨k, d⟩ := c
    have hk : k ≠ a := ha (k, d) (by simp)
    have ih := ih fun c hc => ha c (by simp [hc])
    unfold Mem.insert
    split
    · simp [Mem.read]
    · rw [Mem.read, ih, Mem.read]
      by_cases h : a' = a
      · subst h; simp [Ne.symm hk]
      · simp [h]

theorem Mem.ne_of_mem_erase (m : Memory) (a : Nat) : ∀ c ∈ Mem.erase m a, c.1 ≠ a := by
  intro c hc; simpa [Mem.erase] using (List.mem_filter.mp hc).2

/-- A read after a write: the value written at that address, and every other address as before. It holds of every
list, canonical or not. -/
theorem Mem.read_write (m : Memory) (a : Nat) (b : Byte) (a' : Nat) :
    Mem.read (Mem.write m a b) a' = if a' = a then b else Mem.read m a' := by
  unfold Mem.write
  split
  · next h => rw [Mem.read_erase, h]
  · rw [Mem.read_insert _ _ _ _ (Mem.ne_of_mem_erase m a), Mem.read_erase]
    by_cases h : a' = a <;> simp [h]

@[simp] theorem Mem.read_write_self (m : Memory) (a : Nat) (b : Byte) :
    Mem.read (Mem.write m a b) a = b := by simp [Mem.read_write]

theorem Mem.read_write_other (m : Memory) {a a' : Nat} (b : Byte) (h : a' ≠ a) :
    Mem.read (Mem.write m a b) a' = Mem.read m a' := by simp [Mem.read_write, h]

/-- Stores leave every address they do not name as before. -/
theorem Mem.read_writeAll_other (l : List (Nat × Byte)) (m : Memory) (a : Nat)
    (h : ∀ p ∈ l, p.1 ≠ a) : Mem.read (Mem.writeAll m l) a = Mem.read m a := by
  induction l generalizing m with
  | nil => rfl
  | cons p l ih =>
    obtain ⟨k, b⟩ := p
    rw [Mem.writeAll, ih _ fun q hq => h q (by simp [hq]), Mem.read_write_other]
    exact (h (k, b) (by simp)).symm

/-- With addresses all different, a stored byte reads back. -/
theorem Mem.read_writeAll_mem (l : List (Nat × Byte)) (m : Memory) (a : Nat) (b : Byte)
    (hd : (l.map Prod.fst).Nodup) (h : (a, b) ∈ l) : Mem.read (Mem.writeAll m l) a = b := by
  induction l generalizing m with
  | nil => simp at h
  | cons p l ih =>
    obtain ⟨k, c⟩ := p
    simp only [List.map_cons, List.nodup_cons] at hd
    rcases List.mem_cons.mp h with h | h
    · cases h
      rw [Mem.writeAll, Mem.read_writeAll_other, Mem.read_write_self]
      intro q hq e
      exact hd.1 (List.mem_map.mpr ⟨q, hq, e⟩)
    · exact ih _ hd.2 h

/-- A run of bytes copied from an address on. -/
theorem Mem.read_writeFrom (bs : List Byte) (m : Memory) (a a' : Nat) :
    Mem.read (Mem.writeFrom m a bs) a' =
      if h : a ≤ a' ∧ a' < a + bs.length then bs[a' - a]'(by omega) else Mem.read m a' := by
  induction bs generalizing m a with
  | nil => rw [Mem.writeFrom, dif_neg]; simp
  | cons b bs ih =>
    rw [Mem.writeFrom, ih]
    by_cases h1 : a' = a
    · subst h1
      rw [dif_neg (by omega), dif_pos (by simp), Mem.read_write_self]
      simp
    · rw [Mem.read_write_other _ _ h1]
      by_cases h2 : a + 1 ≤ a' ∧ a' < a + 1 + bs.length
      · rw [dif_pos h2, dif_pos (by simp; omega)]
        have : a' - a = (a' - (a + 1)) + 1 := by omega
        simp [this]
      · rw [dif_neg h2, dif_neg (by simp; omega)]

/-! ### The canonical form -/

theorem Mem.wfFrom_cons (lo k : Nat) (b : Byte) (m : Memory) :
    Mem.wfFrom lo ((k, b) :: m) = true ↔
      lo ≤ k ∧ k < 4096 ∧ b ≠ Mem.unlisted k ∧ Mem.wfFrom (k + 1) m = true := by
  simp [Mem.wfFrom, and_assoc]

theorem Mem.wfFrom_weaken {lo lo' : Nat} (h : lo' ≤ lo) {m : Memory} (hm : Mem.wfFrom lo m = true) :
    Mem.wfFrom lo' m = true := by
  cases m with
  | nil => rfl
  | cons c m =>
    obtain ⟨k, b⟩ := c
    rw [Mem.wfFrom_cons] at hm ⊢
    exact ⟨by omega, hm.2⟩

theorem Mem.wfFrom_erase {lo : Nat} {m : Memory} (a : Nat) (hm : Mem.wfFrom lo m = true) :
    Mem.wfFrom lo (Mem.erase m a) = true := by
  induction m generalizing lo with
  | nil => rfl
  | cons c m ih =>
    obtain ⟨k, b⟩ := c
    rw [Mem.wfFrom_cons] at hm
    by_cases hk : k = a
    · have : Mem.erase ((k, b) :: m) a = Mem.erase m a := by simp [Mem.erase, hk]
      rw [this]
      exact Mem.wfFrom_weaken (by omega) (ih hm.2.2.2)
    · have : Mem.erase ((k, b) :: m) a = (k, b) :: Mem.erase m a := by simp [Mem.erase, hk]
      rw [this, Mem.wfFrom_cons]
      exact ⟨hm.1, hm.2.1, hm.2.2.1, ih hm.2.2.2⟩

theorem Mem.wfFrom_insert {lo : Nat} {m : Memory} {a : Nat} {b : Byte} (hlo : lo ≤ a) (ha : a < 4096)
    (hb : b ≠ Mem.unlisted a) (hne : ∀ c ∈ m, c.1 ≠ a) (hm : Mem.wfFrom lo m = true) :
    Mem.wfFrom lo (Mem.insert a b m) = true := by
  induction m generalizing lo with
  | nil => exact (Mem.wfFrom_cons _ _ _ _).mpr ⟨hlo, ha, hb, rfl⟩
  | cons c m ih =>
    obtain ⟨k, d⟩ := c
    have hk : k ≠ a := hne (k, d) (by simp)
    have hm' := (Mem.wfFrom_cons _ _ _ _).mp hm
    unfold Mem.insert
    split
    · exact (Mem.wfFrom_cons _ _ _ _).mpr
        ⟨hlo, ha, hb, (Mem.wfFrom_cons _ _ _ _).mpr ⟨by omega, hm'.2⟩⟩
    · exact (Mem.wfFrom_cons _ _ _ _).mpr ⟨hm'.1, hm'.2.1, hm'.2.2.1,
        ih (by omega) (fun c hc => hne c (by simp [hc])) hm'.2.2.2⟩

theorem Mem.wf_nil : Mem.wf [] = true := rfl

/-- A write at an address of memory keeps the canonical form. -/
theorem Mem.wf_write {m : Memory} {a : Nat} (b : Byte) (ha : a < 4096) (hm : Mem.wf m = true) :
    Mem.wf (Mem.write m a b) = true := by
  unfold Mem.write
  split
  · exact Mem.wfFrom_erase a hm
  · next h => exact Mem.wfFrom_insert (by omega) ha h (Mem.ne_of_mem_erase m a) (Mem.wfFrom_erase a hm)

theorem Mem.wf_writeAll {m : Memory} (l : List (Nat × Byte)) (hl : ∀ p ∈ l, p.1 < 4096)
    (hm : Mem.wf m = true) : Mem.wf (Mem.writeAll m l) = true := by
  induction l generalizing m with
  | nil => exact hm
  | cons p l ih => exact ih (fun q hq => hl q (by simp [hq])) (Mem.wf_write _ (hl p (by simp)) hm)

theorem Mem.wf_writeFrom {m : Memory} (bs : List Byte) (a : Nat) (ha : a + bs.length ≤ 4096)
    (hm : Mem.wf m = true) : Mem.wf (Mem.writeFrom m a bs) = true := by
  induction bs generalizing m a with
  | nil => exact hm
  | cons b bs ih =>
    simp only [List.length_cons] at ha
    exact ih (a + 1) (by omega) (Mem.wf_write b (by omega) hm)

/-- Below its lowest address a canonical list lists nothing. -/
theorem Mem.read_below {lo : Nat} {m : Memory} (hm : Mem.wfFrom lo m = true) {a : Nat} (ha : a < lo) :
    Mem.read m a = Mem.unlisted a := by
  induction m generalizing lo with
  | nil => rfl
  | cons c m ih =>
    obtain ⟨k, b⟩ := c
    rw [Mem.wfFrom_cons] at hm
    rw [Mem.read, if_neg (by omega), ih hm.2.2.2 (by omega)]

/-- Two canonical lists that read the same everywhere are the same list. -/
theorem Mem.ext_read {lo : Nat} {m m' : Memory} (hm : Mem.wfFrom lo m = true) (hm' : Mem.wfFrom lo m' = true)
    (h : ∀ a, Mem.read m a = Mem.read m' a) : m = m' := by
  induction m generalizing lo m' with
  | nil =>
    cases m' with
    | nil => rfl
    | cons c m' =>
      obtain ⟨k, b⟩ := c
      have e := h k
      simp only [Mem.read, if_true] at e
      exact absurd e.symm ((Mem.wfFrom_cons _ _ _ _).mp hm').2.2.1
  | cons c m ih =>
    obtain ⟨k, b⟩ := c
    have hb := (Mem.wfFrom_cons _ _ _ _).mp hm
    cases m' with
    | nil =>
      have e := h k
      simp only [Mem.read, if_true] at e
      exact absurd e hb.2.2.1
    | cons c' m' =>
      obtain ⟨k', b'⟩ := c'
      have hb' := (Mem.wfFrom_cons _ _ _ _).mp hm'
      rcases Nat.lt_trichotomy k k' with hk | rfl | hk
      · have e := h k
        rw [Mem.read, if_pos rfl, Mem.read, if_neg (by omega), Mem.read_below hb'.2.2.2 (by omega)] at e
        exact absurd e hb.2.2.1
      · have e := h k
        simp only [Mem.read, if_true] at e
        rw [ih hb.2.2.2 hb'.2.2.2, e]
        intro a
        by_cases ha : a = k
        · rw [ha, Mem.read_below hb.2.2.2 (by omega), Mem.read_below hb'.2.2.2 (by omega)]
        · have := h a
          rwa [Mem.read, if_neg ha, Mem.read, if_neg ha] at this
      · have e := h k'
        rw [Mem.read, if_neg (by omega), Mem.read_below hb.2.2.2 (by omega), Mem.read, if_pos rfl] at e
        exact absurd e.symm hb'.2.2.1

/-! ### Effective addresses (R52, R53) -/

theorem resolve_wrap (ea : Nat) : resolve .wrap ea = .ok (ea % 4096) := by
  unfold resolve
  split
  · next h => rw [Nat.mod_eq_of_lt h]
  · rfl

theorem resolve_inside (p : AddrPolicy) {ea : Nat} (h : ea < 4096) : resolve p ea = .ok ea := by
  simp [resolve, h]

theorem resolve_fault {ea : Nat} (h : 4096 ≤ ea) :
    resolve .fault ea = .error (.addressOutOfRange ea) := by
  simp [resolve, Nat.not_lt.mpr h]

theorem resolve_cases (p : AddrPolicy) (ea : Nat) :
    resolve p ea = .ok (ea % 4096) ∨ resolve p ea = .error (.addressOutOfRange ea) := by
  unfold resolve
  split
  · next h => exact .inl (by rw [Nat.mod_eq_of_lt h])
  · cases p
    · exact .inr rfl
    · exact .inl rfl

/-- An access in range gives the physical addresses, one for each byte, in ascending order of offset. -/
theorem resolveFrom_inRange (p : AddrPolicy) (n ea : Nat) (h : n = 0 ∨ p = .wrap ∨ ea + n ≤ 4096) :
    resolveFrom p ea n = .ok ((List.range n).map fun k => (ea + k) % 4096) := by
  induction n generalizing ea with
  | zero => rfl
  | succ n ih =>
    have h1 : resolve p ea = .ok (ea % 4096) := by
      rcases h with h | rfl | h
      · omega
      · exact resolve_wrap ea
      · rw [resolve_inside p (by omega), Nat.mod_eq_of_lt (by omega)]
    have h2 : resolveFrom p (ea + 1) n = .ok ((List.range n).map fun k => (ea + 1 + k) % 4096) :=
      ih (ea + 1) (h.imp (fun h => by omega) (Or.imp_right fun h => by omega))
    rw [resolveFrom, h1]
    simp only [h2, List.range_succ_eq_map, List.map_cons, List.map_map]
    simp [Function.comp_def, Nat.add_comm 1, Nat.add_assoc]

/-- An access out of range under `ADDR_POLICY = fault` reports the lowest address out of range. -/
theorem resolveFrom_outOfRange (n ea : Nat) (hn : 0 < n) (h : 4096 < ea + n) :
    resolveFrom .fault ea n = .error (.addressOutOfRange (max 4096 ea)) := by
  induction n generalizing ea with
  | zero => omega
  | succ n ih =>
    by_cases he : ea < 4096
    · have := ih (ea + 1) (by omega) (by omega)
      rw [resolveFrom, resolve_inside _ he]
      simp only [this]
      rw [Nat.max_eq_left (by omega : ea + 1 ≤ 4096), Nat.max_eq_left (by omega : ea ≤ 4096)]
    · rw [resolveFrom, resolve_fault (by omega), Nat.max_eq_right (by omega)]

/-- Whatever the policy, an access gives the physical addresses or one fatal condition. -/
theorem resolveFrom_cases (p : AddrPolicy) (n ea : Nat) :
    resolveFrom p ea n = .ok ((List.range n).map fun k => (ea + k) % 4096) ∨
      (p = .fault ∧ 0 < n ∧ 4096 < ea + n ∧
        resolveFrom p ea n = .error (.addressOutOfRange (max 4096 ea))) := by
  by_cases h : n = 0 ∨ p = .wrap ∨ ea + n ≤ 4096
  · exact .inl (resolveFrom_inRange p n ea h)
  · cases p
    · obtain ⟨h1, h2⟩ := not_or.mp h
      have h3 := (not_or.mp h2).2
      exact .inr ⟨rfl, by omega, by omega, resolveFrom_outOfRange n ea (by omega) (by omega)⟩
    · simp at h

/-- Sixteen or fewer consecutive bytes have different physical addresses. -/
theorem dataAddrs_nodup (ea n : Nat) (hn : n ≤ 4096) :
    ((List.range n).map fun k => (ea + k) % 4096).Nodup := by
  refine List.Nodup.map_on ?_ List.nodup_range
  intro a ha b hb h
  simp only [List.mem_range] at ha hb
  omega

end Sys2Proof.Machine
end

