-- ==== Sys2Proof/Laws/Ops.lean ====
section
/-!
SUPPORT. One lemma for each shared operation of Machine/Ops.lean, Flags.lean and Operands.lean: everything the
operation can do.
-/

namespace Sys2Proof.Machine

/-! ### The frame of one instruction -/

@[simp] theorem finish_ok (s t : State) : finish s (.ok t) = .next t.tick := rfl

@[simp] theorem finish_error (s : State) (c : Cause) : finish s (.error c) = .next (s.takeFault c) := rfl

/-- An instruction that answers a next state has completed and ticked, or has taken a fatal condition. -/
theorem finish_cases {s t : State} {r : Except Cause State} (h : finish s r = .next t) :
    (∃ u, r = .ok u ∧ t = u.tick) ∨ ∃ c, r = .error c ∧ t = s.takeFault c := by
  cases r with
  | ok u => exact .inl ⟨u, rfl, by simpa using h.symm⟩
  | error c => exact .inr ⟨c, rfl, by simpa using h.symm⟩

/-- Every instruction ends through `finish`. -/
theorem exec_finish (i : Instr) (s : State) : ∃ r, exec i s = finish s r := by
  cases i <;>
    simp only [exec, execCls, execRet, execJp, execCall, execSeImm, execSneImm, execSeReg, execLdImm, execAddImm,
      execLdReg, execOrReg, execAndReg, execXorReg, execAddReg, execSubReg, execShr, execSubnReg, execShl,
      execSneReg, execLdI, execJpV0, execRnd, execDrw, execSkp, execSknp, execLdVxDt, execLdVxK, execLdDtVx,
      execLdStVx, execAddI, execLdF, execLdB, execStoreRegs, execLoadRegs] <;>
    exact ⟨_, rfl⟩

theorem countDown_toNat (b : Byte) : (countDown b).toNat = b.toNat - 1 := by
  unfold countDown
  split
  · next h => simp [h]
  · next h =>
    have : b.toNat ≠ 0 := fun e => h (BitVec.eq_of_toNat_eq (by simpa using e))
    have := b.isLt
    rw [BitVec.toNat_sub]
    simp
    omega

theorem tickedFrom_tick (t : State) : TickedFrom t.dt t.st t.tick := by
  simp [TickedFrom, countDown_toNat]

/-! ### Registers -/

theorem State.reg_setReg (s : State) (x y : Reg) (b : Byte) :
    (s.setReg x b).reg y = if y = x then b else s.reg y := by
  simp only [State.reg, State.setReg_v, Fin.getElem_fin, Vector.getElem_set]
  by_cases h : y = x
  · simp [h]
  · simp [h, Fin.val_ne_of_ne (Ne.symm h)]

theorem getElem_set_reg (v : Vector Byte 16) (x y : Reg) (b : Byte) :
    (v.set x b)[y] = if y = x then b else v[y] := by
  simp only [Fin.getElem_fin, Vector.getElem_set]
  by_cases h : y = x
  · simp [h]
  · simp [h, Fin.val_ne_of_ne (Ne.symm h)]

/-- The same with the index as simp leaves it. -/
theorem getElem_set_val (v : Vector Byte 16) (x y : Reg) (b : Byte) :
    (v.set x.val b)[y.val] = if y = x then b else v[y.val] := getElem_set_reg v x y b

/-- A taken skip is four further than the instruction (R75, R104). -/
theorem add_two_two (w : Word) : w + 2#16 + 2#16 = w + 4#16 := by
  rw [BitVec.add_assoc]; rfl

theorem flagByte_carryOut (a b : Byte) :
    flagByte (carryOut a b) = if 256 ≤ a.toNat + b.toNat then 1 else 0 := by
  by_cases h : 256 ≤ a.toNat + b.toNat <;> simp [flagByte, carryOut, h]

theorem flagByte_notBorrow (a b : Byte) :
    flagByte (notBorrow a b) = if b.toNat ≤ a.toNat then 1 else 0 := by
  by_cases h : b.toNat ≤ a.toNat <;> simp [flagByte, notBorrow, h]

/-! ### The stack -/

theorem State.push_room {s : State} (w : Word) (h : s.sp.val < 16) :
    s.push w = .ok { s with stack := s.stack.set s.sp.val w, sp := ⟨s.sp.val + 1, by omega⟩ } := by
  simp [State.push, h]

theorem State.push_full {s : State} (w : Word) (h : s.sp.val = 16) : s.push w = .error .stackOverflow := by
  simp [State.push, h]

theorem State.popPc_some {s : State} (h : 0 < s.sp.val) :
    s.popPc = .ok { s with pc := s.stack[s.sp.val - 1]'(by omega), sp := ⟨s.sp.val - 1, by omega⟩ } := by
  simp only [State.popPc]
  rw [dif_neg (by omega)]

theorem State.popPc_empty {s : State} (h : s.sp.val = 0) : s.popPc = .error .stackUnderflow := by
  simp only [State.popPc]
  rw [dif_pos h]

/-- A push writes the entry and goes one deeper, or overflows. -/
theorem State.push_cases (s : State) (w : Word) :
    (∃ h : s.sp.val < 16,
        s.push w = .ok { s with stack := s.stack.set s.sp.val w, sp := ⟨s.sp.val + 1, by omega⟩ }) ∨
      (s.sp.val = 16 ∧ s.push w = .error .stackOverflow) := by
  by_cases h : s.sp.val < 16
  · exact .inl ⟨h, State.push_room w h⟩
  · exact .inr ⟨by omega, State.push_full w (by omega)⟩

/-- A pop takes the topmost entry and goes one shallower, or underflows. -/
theorem State.popPc_cases (s : State) :
    (∃ h : 0 < s.sp.val, s.popPc =
        .ok { s with pc := s.stack[s.sp.val - 1]'(by omega), sp := ⟨s.sp.val - 1, by omega⟩ }) ∨
      (s.sp.val = 0 ∧ s.popPc = .error .stackUnderflow) := by
  by_cases h : 0 < s.sp.val
  · exact .inl ⟨h, State.popPc_some h⟩
  · exact .inr ⟨by omega, State.popPc_empty (by omega)⟩

/-! ### Memory at `I` -/

theorem dataAddr_lt (s : State) (k : Nat) : dataAddr s k < 4096 := Nat.mod_lt _ (by decide)

theorem dataAddr_inj (s : State) {j k : Nat} (hj : j < 4096) (hk : k < 4096)
    (h : dataAddr s j = dataAddr s k) : j = k := by
  simp only [dataAddr] at h
  omega

@[simp] theorem dataAddr_advance (s : State) (k : Nat) : dataAddr s.advance k = dataAddr s k := rfl

theorem dataInRange_advance (s : State) (n : Nat) : DataInRange s.advance n ↔ DataInRange s n := Iff.rfl

theorem State.dataAddrs_inRange {s : State} {n : Nat} (h : DataInRange s n) :
    s.dataAddrs n = .ok ((List.range n).map (dataAddr s)) :=
  resolveFrom_inRange _ _ _ h

theorem State.dataAddrs_cases (s : State) (n : Nat) :
    s.dataAddrs n = .ok ((List.range n).map (dataAddr s)) ∨
      (s.cfg.addrPolicy = .fault ∧ 0 < n ∧ 4096 < s.idx.toNat + n ∧
        s.dataAddrs n = .error (.addressOutOfRange (max 4096 s.idx.toNat))) :=
  resolveFrom_cases _ _ _

theorem State.loadBytes_inRange {s : State} {n : Nat} (h : DataInRange s n) :
    s.loadBytes n = .ok ((List.range n).map fun k => Mem.read s.mem (dataAddr s k)) := by
  simp [State.loadBytes, State.dataAddrs_inRange h, Function.comp_def]

theorem State.loadBytes_outOfRange {s : State} {n : Nat} (hp : s.cfg.addrPolicy = .fault) (hn : 0 < n)
    (h : 4096 < s.idx.toNat + n) :
    s.loadBytes n = .error (.addressOutOfRange (max 4096 s.idx.toNat)) := by
  simp [State.loadBytes, State.dataAddrs, hp, resolveFrom_outOfRange n _ hn h]

/-- The state after the bytes are stored at `I` on. -/
theorem State.storeBytes_inRange {s : State} {bs : List Byte} (h : DataInRange s bs.length) :
    s.storeBytes bs =
      .ok (s.setMem (Mem.writeAll s.mem (((List.range bs.length).map (dataAddr s)).zip bs))) := by
  simp [State.storeBytes, State.dataAddrs_inRange h]

theorem State.storeBytes_outOfRange {s : State} {bs : List Byte} (hp : s.cfg.addrPolicy = .fault)
    (hn : 0 < bs.length) (h : 4096 < s.idx.toNat + bs.length) :
    s.storeBytes bs = .error (.addressOutOfRange (max 4096 s.idx.toNat)) := by
  simp [State.storeBytes, State.dataAddrs, hp, resolveFrom_outOfRange _ _ hn h]

/-- A load gives the bytes at `I` on, or one fatal condition. -/
theorem State.loadBytes_cases (s : State) (n : Nat) :
    s.loadBytes n = .ok ((List.range n).map fun k => Mem.read s.mem (dataAddr s k)) ∨
      ∃ c, s.loadBytes n = .error c := by
  rcases State.dataAddrs_cases s n with h | ⟨-, -, -, h⟩
  · exact .inl (by rw [State.loadBytes, h]; simp [Function.comp_def])
  · exact .inr ⟨_, by rw [State.loadBytes, h]⟩

/-- A store writes the bytes at `I` on, or takes one fatal condition. -/
theorem State.storeBytes_cases (s : State) (bs : List Byte) :
    s.storeBytes bs =
        .ok (s.setMem (Mem.writeAll s.mem (((List.range bs.length).map (dataAddr s)).zip bs))) ∨
      ∃ c, s.storeBytes bs = .error c := by
  rcases State.dataAddrs_cases s bs.length with h | ⟨-, -, -, h⟩
  · exact .inl (by rw [State.storeBytes, h])
  · exact .inr ⟨_, by rw [State.storeBytes, h]⟩

/-- A store of bytes leaves every address outside the stored ones as before. -/
theorem read_stored_other (s : State) (bs : List Byte) (m : Memory) (a : Nat)
    (h : ∀ k < bs.length, a ≠ dataAddr s k) :
    Mem.read (Mem.writeAll m (((List.range bs.length).map (dataAddr s)).zip bs)) a = Mem.read m a := by
  apply Mem.read_writeAll_other
  rintro ⟨k, b⟩ hp rfl
  obtain ⟨j, hj, e⟩ := List.mem_map.mp (List.of_mem_zip hp).1
  exact h j (List.mem_range.mp hj) e.symm

/-- A store of at most 4096 bytes: each stored byte reads back at its address. -/
theorem read_stored (s : State) (bs : List Byte) (m : Memory) (hn : bs.length ≤ 4096) {k : Nat}
    (hk : k < bs.length) :
    Mem.read (Mem.writeAll m (((List.range bs.length).map (dataAddr s)).zip bs)) (dataAddr s k) = bs[k] := by
  apply Mem.read_writeAll_mem
  · rw [List.map_fst_zip (by simp)]
    exact dataAddrs_nodup _ _ hn
  · rw [List.mem_iff_getElem]
    exact ⟨k, by simpa using hk, by simp⟩

theorem wf_stored (s : State) (bs : List Byte) {m : Memory} (hm : Mem.wf m = true) :
    Mem.wf (Mem.writeAll m (((List.range bs.length).map (dataAddr s)).zip bs)) = true := by
  refine Mem.wf_writeAll _ ?_ hm
  rintro ⟨k, b⟩ hp
  obtain ⟨j, -, e⟩ := List.mem_map.mp (List.of_mem_zip hp).1
  exact e ▸ dataAddr_lt s j

/-! ### Operands -/

@[simp] theorem bcdDigits_length (v : Byte) : (bcdDigits v).length = 3 := rfl

@[simp] theorem State.regsTo_length (s : State) (x : Reg) : (s.regsTo x).length = x.val + 1 := by
  simp [State.regsTo]

theorem State.regsTo_getElem (s : State) (x : Reg) (k : Nat) (hk : k < (s.regsTo x).length) :
    (s.regsTo x)[k] = s.v[k]'(by simp at hk; omega) := by
  simp [State.regsTo]

theorem loadRegsFrom_getElem (bs : List Byte) (v : Vector Byte 16) (i : Nat) (hi : i + bs.length ≤ 16)
    (r : Reg) :
    (loadRegsFrom v i bs)[r] =
      if h : i ≤ r.val ∧ r.val < i + bs.length then bs[r.val - i]'(by omega) else v[r] := by
  induction bs generalizing v i with
  | nil => rw [loadRegsFrom, dif_neg]; simp
  | cons b bs ih =>
    simp only [List.length_cons] at hi
    rw [loadRegsFrom, dif_pos (by omega), ih _ _ (by omega)]
    by_cases h1 : r.val = i
    · rw [dif_neg (by omega), dif_pos (by simp; omega)]
      simp [h1]
    · by_cases h2 : i + 1 ≤ r.val ∧ r.val < i + 1 + bs.length
      · rw [dif_pos h2, dif_pos (by simp; omega)]
        have : r.val - i = (r.val - (i + 1)) + 1 := by omega
        simp [this]
      · rw [dif_neg h2, dif_neg (by simp; omega)]
        simp [Ne.symm h1]

theorem keyOf_legal {b : Byte} (h : b.toNat < 16) : keyOf b = .ok ⟨b.toNat, h⟩ := by
  simp [keyOf, h]

theorem keyOf_illegal {b : Byte} (h : 15 < b.toNat) : keyOf b = .error (.keyIndexOutOfRange b) := by
  simp only [keyOf]
  rw [dif_neg (by omega)]

/-- A register's value names a key, or no key. -/
theorem keyOf_cases (b : Byte) :
    (∃ h : b.toNat < 16, keyOf b = .ok ⟨b.toNat, h⟩) ∨
      (15 < b.toNat ∧ keyOf b = .error (.keyIndexOutOfRange b)) := by
  by_cases h : b.toNat < 16
  · exact .inl ⟨h, keyOf_legal h⟩
  · exact .inr ⟨by omega, keyOf_illegal (by omega)⟩

theorem lowestKeyFrom_cases (keys : Vector Bool 16) (n k : Nat) (hn : k + n = 16) :
    (∃ j, ∃ h : j < 16, lowestKeyFrom keys k n = some j ∧ k ≤ j ∧ keys[j] = true ∧
        ∀ i, (hi : k ≤ i ∧ i < j) → keys[i] = false) ∨
      (lowestKeyFrom keys k n = none ∧ ∀ i, (hi : k ≤ i ∧ i < 16) → keys[i] = false) := by
  induction n generalizing k with
  | zero => exact .inr ⟨rfl, fun i hi => by omega⟩
  | succ n ih =>
    rw [lowestKeyFrom]
    have hk : k < 16 := by omega
    by_cases h : keys[k] = true
    · exact .inl ⟨k, hk, by rw [if_pos (by rw [Vector.getElem?_eq_getElem hk, h])], Nat.le_refl k, h, fun i hi => by omega⟩
    · have hf : keys[k] = false := by simpa using h
      rw [if_neg (by rw [Vector.getElem?_eq_getElem hk, hf]; simp)]
      rcases ih (k + 1) (by omega) with ⟨j, hj, e, hle, ht, hb⟩ | ⟨e, hb⟩
      · refine .inl ⟨j, hj, e, by omega, ht, fun i hi => ?_⟩
        by_cases hik : i = k
        · subst hik; exact hf
        · exact hb i ⟨by omega, hi.2⟩
      · refine .inr ⟨e, fun i hi => ?_⟩
        by_cases hik : i = k
        · subst hik; exact hf
        · exact hb i ⟨by omega, hi.2⟩

/-- The key-wait's scan: the lowest pressed key, or none when no key is pressed. -/
theorem lowestKey_cases (keys : Vector Bool 16) :
    (∃ k : Fin 16, lowestKey keys = some k.val ∧ keys[k] = true ∧ ∀ j : Fin 16, j < k → keys[j] = false) ∨
      (lowestKey keys = none ∧ ∀ j : Fin 16, keys[j] = false) := by
  rcases lowestKeyFrom_cases keys 16 0 rfl with ⟨j, hj, e, -, ht, hb⟩ | ⟨e, hb⟩
  · exact .inl ⟨⟨j, hj⟩, e, ht, fun i hi => hb i.val ⟨by omega, hi⟩⟩
  · exact .inr ⟨e, fun i => hb i.val ⟨by omega, i.isLt⟩⟩

theorem immAddr_toNat (nnn : Imm12) : (immAddr nnn).toNat = nnn.toNat := by
  have := nnn.isLt
  rw [immAddr, BitVec.toNat_setWidth]
  omega

theorem zextByte_toNat (b : Byte) : (zextByte b).toNat = b.toNat := by
  have := b.isLt
  rw [zextByte, BitVec.toNat_setWidth]
  omega

theorem glyphAddr_toNat (v : Byte) : (glyphAddr v).toNat = 0x050 + 5 * v.toNat := by
  have h := v.isLt
  have h5 : BitVec.toNat (5 : Word) = 5 := rfl
  have h80 : BitVec.toNat (0x0050 : Word) = 80 := rfl
  rw [glyphAddr, BitVec.toNat_add, BitVec.toNat_mul, zextByte_toNat, h5, h80]
  omega

/-- The shifts by one, as numbers, and what the flag becomes when it is shifted itself (R128, R130, R132). -/
theorem shiftRight_one : ∀ b : Byte, (b >>> 1).toNat = b.toNat / 2 ∧
    (flagByte (shiftedOutRight b)).toNat = b.toNat % 2 ∧ flagByte (shiftedOutRight b) >>> 1 = 0 := by
  decide

theorem shiftLeft_one : ∀ b : Byte, (b <<< 1).toNat = 2 * b.toNat % 256 ∧
    (flagByte (shiftedOutLeft b)).toNat = b.toNat / 128 ∧
    (flagByte (shiftedOutLeft b) <<< 1).toNat = 2 * (b.toNat / 128) := by
  decide

/-- The three digits, as numbers (R143). -/
theorem bcdDigits_toNat (v : Byte) :
    (bcdDigits v).map BitVec.toNat = [v.toNat / 100, v.toNat / 10 % 10, v.toNat % 10] := by
  have h := v.isLt
  have h1 : v.toNat / 100 % 256 = v.toNat / 100 := by omega
  have h2 : v.toNat / 10 % 10 % 256 = v.toNat / 10 % 10 := by omega
  have h3 : v.toNat % 10 % 256 = v.toNat % 10 := by omega
  simp [bcdDigits, h1, h2, h3]

end Sys2Proof.Machine
end

