-- ==== Sys2Proof/Laws/Draw.lean ====
section
/-!
SUPPORT. The draw instruction's loops (R150): which cells a sprite inverts and when it collides, for a row and for
the whole sprite. No cell is visited twice (R150 corner case f), so each loop is one condition per cell.
-/

namespace Sys2Proof.Machine

theorem Framebuffer.cell_setCell (f : Framebuffer) (x x' : Fin 64) (y y' : Fin 32) (b : Bool) :
    Framebuffer.cell (Framebuffer.setCell f x y b) x' y' =
      if x' = x ∧ y' = y then b else Framebuffer.cell f x' y' := by
  simp only [Framebuffer.cell, Framebuffer.setCell, Fin.getElem_fin, Vector.getElem_set]
  by_cases hx : x' = x
  · subst hx
    by_cases hy : y' = y
    · subst hy; simp
    · simp [hy, Fin.val_ne_of_ne (Ne.symm hy)]
  · simp [hx, Fin.val_ne_of_ne (Ne.symm hx)]

theorem Framebuffer.cell_blank (x : Fin 64) (y : Fin 32) : Framebuffer.cell blankFramebuffer x y = false := by
  simp [Framebuffer.cell, blankFramebuffer]

/-- Two framebuffers with the same cells are the same. -/
theorem Framebuffer.ext_cell {f g : Framebuffer}
    (h : ∀ x y, Framebuffer.cell f x y = Framebuffer.cell g x y) : f = g := by
  apply Vector.ext
  intro i hi
  apply Vector.ext
  intro j hj
  exact h ⟨i, hi⟩ ⟨j, hj⟩

theorem Canvas.cell_plot (edge : DrawEdge) (xx yy : Nat) (d : Canvas) (x : Fin 64) (y : Fin 32) :
    Framebuffer.cell (Canvas.plot edge xx yy d).fb x y =
      (Framebuffer.cell d.fb x y ^^ decide (place edge xx yy = some (x, y))) := by
  unfold Canvas.plot
  cases h : place edge xx yy with
  | none => simp
  | some p =>
    obtain ⟨px, py⟩ := p
    simp only [Framebuffer.cell_setCell]
    by_cases hp : x = px ∧ y = py
    · obtain ⟨rfl, rfl⟩ := hp; simp
    · rw [if_neg hp, decide_eq_false]
      · simp
      · intro e; simp only [Option.some.injEq, Prod.mk.injEq] at e; exact hp ⟨e.1.symm, e.2.symm⟩

theorem Canvas.collided_plot (edge : DrawEdge) (xx yy : Nat) (d : Canvas) :
    (Canvas.plot edge xx yy d).collided = true ↔
      d.collided = true ∨ ∃ x y, place edge xx yy = some (x, y) ∧ Framebuffer.cell d.fb x y = true := by
  unfold Canvas.plot
  cases h : place edge xx yy with
  | none => simp
  | some p => obtain ⟨px, py⟩ := p; simp

/-- Two pixels of one sprite on one cell are the same pixel: a sprite is at most 8 columns by 15 rows (R150 f). -/
theorem place_inj {edge : DrawEdge} {x0 y0 c c' r r' : Nat} {p : Fin 64 × Fin 32} (hc : c < 8) (hc' : c' < 8)
    (hr : r < 16) (hr' : r' < 16) (h : place edge (x0 + c) (y0 + r) = some p)
    (h' : place edge (x0 + c') (y0 + r') = some p) : c = c' ∧ r = r' := by
  cases edge with
  | wrap =>
    have e := h.trans h'.symm
    simp only [place, Option.some.injEq, Prod.mk.injEq, Fin.mk.injEq] at e
    omega
  | clip =>
    simp only [place] at h h'
    split at h
    · split at h'
      · have e := h.trans h'.symm
        simp only [Option.some.injEq, Prod.mk.injEq, Fin.mk.injEq] at e
        omega
      · simp at h'
    · simp at h

/-- Row pixel `(c, r)` of a sprite is set and lands on a cell. -/
def PixelOn (edge : DrawEdge) (b : Byte) (xx yy c : Nat) (x : Fin 64) (y : Fin 32) : Prop :=
  spriteBit b c = true ∧ place edge (xx + c) yy = some (x, y)

/-- One row: a cell is inverted exactly when a set bit of the row lands on it, and the row collides exactly when such
a cell was on. -/
theorem Canvas.drawColumns_spec (edge : DrawEdge) (b : Byte) (x0 yy : Nat) (n c : Nat) (hn : c + n ≤ 8)
    (d : Canvas) :
    (∀ x y, ((∃ j, c ≤ j ∧ j < c + n ∧ PixelOn edge b x0 yy j x y) →
        Framebuffer.cell (Canvas.drawColumns edge b x0 yy c n d).fb x y = !Framebuffer.cell d.fb x y) ∧
      ((¬∃ j, c ≤ j ∧ j < c + n ∧ PixelOn edge b x0 yy j x y) →
        Framebuffer.cell (Canvas.drawColumns edge b x0 yy c n d).fb x y = Framebuffer.cell d.fb x y)) ∧
    ((Canvas.drawColumns edge b x0 yy c n d).collided = true ↔ d.collided = true ∨
      ∃ j x y, c ≤ j ∧ j < c + n ∧ PixelOn edge b x0 yy j x y ∧ Framebuffer.cell d.fb x y = true) := by
  induction n generalizing c d with
  | zero =>
    refine ⟨fun x y => ⟨?_, fun _ => rfl⟩, ?_⟩
    · rintro ⟨j, h1, h2, -⟩; omega
    · constructor
      · exact .inl
      · rintro (h | ⟨j, x, y, h1, h2, -⟩)
        · exact h
        · omega
  | succ n ih =>
    rw [Canvas.drawColumns]
    -- the canvas after column `c`
    have key : ∃ d', (if spriteBit b c then Canvas.plot edge (x0 + c) yy d else d) = d' ∧
        (∀ x y, (PixelOn edge b x0 yy c x y → Framebuffer.cell d'.fb x y = !Framebuffer.cell d.fb x y) ∧
          (¬PixelOn edge b x0 yy c x y → Framebuffer.cell d'.fb x y = Framebuffer.cell d.fb x y)) ∧
        (d'.collided = true ↔ d.collided = true ∨
          ∃ x y, PixelOn edge b x0 yy c x y ∧ Framebuffer.cell d.fb x y = true) := by
      refine ⟨_, rfl, ?_, ?_⟩
      · intro x y
        by_cases hb : spriteBit b c = true
        · rw [if_pos hb, Canvas.cell_plot]
          constructor
          · rintro ⟨-, hp⟩; simp [hp]
          · intro h
            have : place edge (x0 + c) yy ≠ some (x, y) := fun e => h ⟨hb, e⟩
            simp [this]
        · rw [if_neg hb]
          exact ⟨fun h => absurd h.1 hb, fun _ => rfl⟩
      · by_cases hb : spriteBit b c = true
        · rw [if_pos hb, Canvas.collided_plot]
          simp [PixelOn, hb]
        · rw [if_neg hb]
          simp [PixelOn, hb]
    obtain ⟨d', hd', hcell, hcol⟩ := key
    rw [hd']
    obtain ⟨ih1, ih2⟩ := ih (c + 1) (by omega) d'
    -- a later column of the same row never meets the cell of column `c`
    have apart : ∀ j x y, c + 1 ≤ j → j < c + 1 + n → PixelOn edge b x0 yy j x y →
        ¬PixelOn edge b x0 yy c x y := by
      intro j x y h1 h2 hj hc
      have hp := hj.2
      have hq := hc.2
      have := place_inj (x0 := x0) (y0 := yy) (c := j) (c' := c) (r := 0) (r' := 0) (by omega) (by omega) (by omega) (by omega)
        (by simpa using hp) (by simpa using hq)
      omega
    refine ⟨fun x y => ⟨?_, ?_⟩, ?_⟩
    · rintro ⟨j, h1, h2, hj⟩
      by_cases hjc : j = c
      · subst hjc
        rw [(ih1 x y).2, (hcell x y).1 hj]
        rintro ⟨k, hk1, hk2, hk⟩
        exact apart k x y hk1 hk2 hk hj
      · rw [(ih1 x y).1 ⟨j, by omega, by omega, hj⟩, (hcell x y).2 (apart j x y (by omega) (by omega) hj)]
    · intro h
      rw [(ih1 x y).2, (hcell x y).2]
      · exact fun hc => h ⟨c, by omega, by omega, hc⟩
      · rintro ⟨k, hk1, hk2, hk⟩
        exact h ⟨k, by omega, by omega, hk⟩
    · rw [ih2, hcol]
      constructor
      · rintro ((h | ⟨x, y, hp, hon⟩) | ⟨j, x, y, h1, h2, hp, hon⟩)
        · exact .inl h
        · exact .inr ⟨c, x, y, by omega, by omega, hp, hon⟩
        · rw [(hcell x y).2 (apart j x y h1 h2 hp)] at hon
          exact .inr ⟨j, x, y, by omega, by omega, hp, hon⟩
      · rintro (h | ⟨j, x, y, h1, h2, hp, hon⟩)
        · exact .inl (.inl h)
        · by_cases hjc : j = c
          · subst hjc; exact .inl (.inr ⟨x, y, hp, hon⟩)
          · refine .inr ⟨j, x, y, by omega, by omega, hp, ?_⟩
            rw [(hcell x y).2 (apart j x y (by omega) (by omega) hp)]
            exact hon

/-- Sprite pixel at row `r`, column `c` of the rows from the top is set and lands on a cell. -/
def SpriteOn (edge : DrawEdge) (x0 y0 : Nat) (rows : List Byte) (r c : Nat) (x : Fin 64) (y : Fin 32) : Prop :=
  c < 8 ∧ ∃ h : r < rows.length, PixelOn edge rows[r] x0 (y0 + r) c x y

/-- The whole sprite: a cell is inverted exactly when a set bit lands on it, and the draw collides exactly when such
a cell was on before (R150, R152). -/
theorem Canvas.drawRows_spec (edge : DrawEdge) (x0 : Nat) (rows : List Byte) (y0 : Nat)
    (hn : rows.length ≤ 16) (d : Canvas) :
    (∀ x y, ((∃ r c, SpriteOn edge x0 y0 rows r c x y) →
        Framebuffer.cell (Canvas.drawRows edge x0 y0 rows d).fb x y = !Framebuffer.cell d.fb x y) ∧
      ((¬∃ r c, SpriteOn edge x0 y0 rows r c x y) →
        Framebuffer.cell (Canvas.drawRows edge x0 y0 rows d).fb x y = Framebuffer.cell d.fb x y)) ∧
    ((Canvas.drawRows edge x0 y0 rows d).collided = true ↔ d.collided = true ∨
      ∃ r c x y, SpriteOn edge x0 y0 rows r c x y ∧ Framebuffer.cell d.fb x y = true) := by
  induction rows generalizing y0 d with
  | nil =>
    refine ⟨fun x y => ⟨?_, fun _ => rfl⟩, ?_⟩
    · rintro ⟨r, c, -, h, -⟩; simp at h
    · constructor
      · exact .inl
      · rintro (h | ⟨r, c, x, y, ⟨-, h', -⟩, -⟩)
        · exact h
        · simp at h'
  | cons b rows ih =>
    simp only [List.length_cons] at hn
    rw [Canvas.drawRows]
    obtain ⟨hcell, hcol⟩ := Canvas.drawColumns_spec edge b x0 y0 8 0 (by omega) d
    generalize Canvas.drawColumns edge b x0 y0 0 8 d = d' at hcell hcol ⊢
    obtain ⟨ih1, ih2⟩ := ih (y0 + 1) (by omega) d'
    have first : ∀ c x y, SpriteOn edge x0 y0 (b :: rows) 0 c x y ↔ c < 8 ∧ PixelOn edge b x0 y0 c x y := by
      intro c x y; simp [SpriteOn]
    have later : ∀ r c x y, SpriteOn edge x0 y0 (b :: rows) (r + 1) c x y ↔
        SpriteOn edge x0 (y0 + 1) rows r c x y := by
      intro r c x y
      simp [SpriteOn, Nat.add_assoc, Nat.add_comm 1 r]
    -- a later row never meets a cell of the first
    have apart : ∀ r c x y, SpriteOn edge x0 (y0 + 1) rows r c x y →
        ¬∃ j, 0 ≤ j ∧ j < 0 + 8 ∧ PixelOn edge b x0 y0 j x y := by
      rintro r c x y ⟨hc, hr, -, hp⟩ ⟨j, -, hj, -, hq⟩
      have := place_inj (x0 := x0) (y0 := y0) (c := c) (c' := j) (r := 1 + r) (r' := 0) hc (by omega)
        (by omega) (by omega) (by rw [← Nat.add_assoc]; exact hp) (by simpa using hq)
      omega
    refine ⟨fun x y => ⟨?_, ?_⟩, ?_⟩
    · rintro ⟨r, c, h⟩
      cases r with
      | zero =>
        rw [first] at h
        rw [(ih1 x y).2, (hcell x y).1 ⟨c, by omega, by omega, h.2⟩]
        rintro ⟨r', c', h'⟩
        exact apart r' c' x y h' ⟨c, by omega, by omega, h.2⟩
      | succ r =>
        rw [later] at h
        rw [(ih1 x y).1 ⟨r, c, h⟩, (hcell x y).2 (apart r c x y h)]
    · intro h
      rw [(ih1 x y).2, (hcell x y).2]
      · rintro ⟨j, -, hj, hp⟩
        exact h ⟨0, j, (first j x y).mpr ⟨by omega, hp⟩⟩
      · rintro ⟨r, c, h'⟩
        exact h ⟨r + 1, c, (later r c x y).mpr h'⟩
    · rw [ih2, hcol]
      constructor
      · rintro ((h | ⟨j, x, y, -, hj, hp, hon⟩) | ⟨r, c, x, y, h, hon⟩)
        · exact .inl h
        · exact .inr ⟨0, j, x, y, (first j x y).mpr ⟨by omega, hp⟩, hon⟩
        · rw [(hcell x y).2 (apart r c x y h)] at hon
          exact .inr ⟨r + 1, c, x, y, (later r c x y).mpr h, hon⟩
      · rintro (h | ⟨r, c, x, y, h, hon⟩)
        · exact .inl (.inl h)
        · cases r with
          | zero =>
            rw [first] at h
            exact .inl (.inr ⟨c, x, y, by omega, by omega, h.2, hon⟩)
          | succ r =>
            rw [later] at h
            refine .inr ⟨r, c, x, y, h, ?_⟩
            rw [(hcell x y).2 (apart r c x y h)]
            exact hon

/-- The place a pixel takes is the cell it lands on. -/
theorem place_eq_some_iff (edge : DrawEdge) (xx yy : Nat) (cx : Fin 64) (cy : Fin 32) :
    place edge xx yy = some (cx, cy) ↔ Lands edge xx yy cx cy := by
  cases edge with
  | wrap => simp [place, Lands, Fin.ext_iff, eq_comm]
  | clip =>
    simp only [place, Lands]
    split
    · simp [Fin.ext_iff, eq_comm]
    · constructor
      · simp
      · rintro ⟨h1, h2⟩; omega

/-- The cells the draw loop inverts are those the sprite in memory covers. -/
theorem spriteOn_iff_covers (s : State) (x0 y0 n : Nat) (cx : Fin 64) (cy : Fin 32) :
    (∃ r c, SpriteOn s.cfg.drawEdge x0 y0 ((List.range n).map fun k => Mem.read s.mem (dataAddr s k)) r c cx cy) ↔
      SpriteCovers s x0 y0 n cx cy := by
  constructor
  · rintro ⟨r, c, hc, hr, hp, hq⟩
    simp at hr
    exact ⟨r, c, hr, hc, by simpa [spriteBit] using hp, (place_eq_some_iff _ _ _ _ _).mp hq⟩
  · rintro ⟨r, c, hr, hc, hp, hq⟩
    exact ⟨r, c, hc, by simpa using hr, by simpa [spriteBit] using hp, (place_eq_some_iff _ _ _ _ _).mpr hq⟩

end Sys2Proof.Machine
end

