-- ==== Sys2Proof/Laws/Exec.lean ====
section
/-!
SUPPORT. One equation per instruction: what `exec` answers for it, in the shared operations. Proofs cite these and the
laws of the operations instead of unfolding `exec` and the meanings.
-/

namespace Sys2Proof.Machine

theorem exec_cls_eq (s : State) :
    exec .cls s =
      .next (s.advance.setFb blankFramebuffer).tick := rfl

theorem exec_ret_eq (s : State) :
    exec .ret s =
      finish s s.advance.popPc := rfl

theorem exec_jp_eq (nnn : Imm12) (s : State) :
    exec (.jp nnn) s =
      .next (s.advance.setPc (immAddr nnn)).tick := rfl

theorem exec_call_eq (nnn : Imm12) (s : State) :
    exec (.call nnn) s =
      finish s ((s.advance.push (s.pc + 2)).map fun t => t.setPc (immAddr nnn)) := rfl

theorem exec_seImm_eq (x : Reg) (nn : Byte) (s : State) :
    exec (.seImm x nn) s =
      .next (s.advance.skipIf (s.reg x == nn)).tick := rfl

theorem exec_sneImm_eq (x : Reg) (nn : Byte) (s : State) :
    exec (.sneImm x nn) s =
      .next (s.advance.skipIf (s.reg x != nn)).tick := rfl

theorem exec_seReg_eq (x y : Reg) (s : State) :
    exec (.seReg x y) s =
      .next (s.advance.skipIf (s.reg x == s.reg y)).tick := rfl

theorem exec_ldImm_eq (x : Reg) (nn : Byte) (s : State) :
    exec (.ldImm x nn) s =
      .next (s.advance.setReg x nn).tick := rfl

theorem exec_addImm_eq (x : Reg) (nn : Byte) (s : State) :
    exec (.addImm x nn) s =
      .next (s.advance.setReg x (s.reg x + nn)).tick := rfl

theorem exec_ldReg_eq (x y : Reg) (s : State) :
    exec (.ldReg x y) s =
      .next (s.advance.setReg x (s.reg y)).tick := rfl

theorem exec_orReg_eq (x y : Reg) (s : State) :
    exec (.orReg x y) s =
      .next (s.advance.setReg x (s.reg x ||| s.reg y)).tick := rfl

theorem exec_andReg_eq (x y : Reg) (s : State) :
    exec (.andReg x y) s =
      .next (s.advance.setReg x (s.reg x &&& s.reg y)).tick := rfl

theorem exec_xorReg_eq (x y : Reg) (s : State) :
    exec (.xorReg x y) s =
      .next (s.advance.setReg x (s.reg x ^^^ s.reg y)).tick := rfl

theorem exec_addReg_eq (x y : Reg) (s : State) :
    exec (.addReg x y) s =
      .next (s.advance.flagThenResult x (carryOut (s.reg x) (s.reg y)) (s.reg x + s.reg y)).tick := rfl

theorem exec_subReg_eq (x y : Reg) (s : State) :
    exec (.subReg x y) s =
      .next (s.advance.flagThenResult x (notBorrow (s.reg x) (s.reg y)) (s.reg x - s.reg y)).tick := rfl

theorem exec_shr_eq (x y : Reg) (s : State) :
    exec (.shr x y) s =
      .next (s.advance.flagThenShift x (shiftedOutRight (s.reg x)) fun b => b >>> 1).tick := rfl

theorem exec_subnReg_eq (x y : Reg) (s : State) :
    exec (.subnReg x y) s =
      .next (s.advance.flagThenResult x (notBorrow (s.reg y) (s.reg x)) (s.reg y - s.reg x)).tick := rfl

theorem exec_shl_eq (x y : Reg) (s : State) :
    exec (.shl x y) s =
      .next (s.advance.flagThenShift x (shiftedOutLeft (s.reg x)) fun b => b <<< 1).tick := rfl

theorem exec_sneReg_eq (x y : Reg) (s : State) :
    exec (.sneReg x y) s =
      .next (s.advance.skipIf (s.reg x != s.reg y)).tick := rfl

theorem exec_ldI_eq (nnn : Imm12) (s : State) :
    exec (.ldI nnn) s =
      .next (s.advance.setIdx (immAddr nnn)).tick := rfl

theorem exec_jpV0_eq (nnn : Imm12) (s : State) :
    exec (.jpV0 nnn) s =
      .next (s.advance.setPc (immAddr nnn + zextByte (s.reg 0))).tick := rfl

theorem exec_rnd_eq (x : Reg) (nn : Byte) (s : State) :
    exec (.rnd x nn) s =
      .next (s.advance.draw.2.maskInto x nn (Config.rnd s.draws)).tick := rfl

theorem exec_drw_eq (x y : Reg) (n : Fin 16) (s : State) :
    exec (.drw x y n) s =
      finish s ((s.advance.loadBytes n.val).map fun rows =>
        s.advance.putCanvas (drawSprite s.cfg.drawEdge (s.reg x) (s.reg y) rows s.fb)) := rfl

theorem exec_skp_eq (x : Reg) (s : State) :
    exec (.skp x) s =
      finish s ((keyOf (s.reg x)).map fun k => s.advance.skipIf s.keys[k]) := rfl

theorem exec_sknp_eq (x : Reg) (s : State) :
    exec (.sknp x) s =
      finish s ((keyOf (s.reg x)).map fun k => s.advance.skipIf (!s.keys[k])) := rfl

theorem exec_ldVxDt_eq (x : Reg) (s : State) :
    exec (.ldVxDt x) s =
      .next (s.advance.setReg x s.dt).tick := rfl

theorem exec_ldVxK_eq (x : Reg) (s : State) :
    exec (.ldVxK x) s =
      .next (match lowestKey s.keys with
        | some k => s.advance.setReg x (BitVec.ofNat 8 k)
        | none => s.advance.setPc s.pc).tick := rfl

theorem exec_ldDtVx_eq (x : Reg) (s : State) :
    exec (.ldDtVx x) s =
      .next (s.advance.setDt (s.reg x)).tick := rfl

theorem exec_ldStVx_eq (x : Reg) (s : State) :
    exec (.ldStVx x) s =
      .next (s.advance.setSt (s.reg x)).tick := rfl

theorem exec_addI_eq (x : Reg) (s : State) :
    exec (.addI x) s =
      .next (s.advance.setIdx (s.idx + zextByte (s.reg x))).tick := rfl

theorem exec_ldF_eq (x : Reg) (s : State) :
    exec (.ldF x) s =
      .next (s.advance.setIdx (glyphAddr (s.reg x))).tick := rfl

theorem exec_ldB_eq (x : Reg) (s : State) :
    exec (.ldB x) s =
      finish s (s.advance.storeBytes (bcdDigits (s.reg x))) := rfl

theorem exec_storeRegs_eq (x : Reg) (s : State) :
    exec (.storeRegs x) s =
      finish s (s.advance.storeBytes (s.regsTo x)) := rfl

theorem exec_loadRegs_eq (x : Reg) (s : State) :
    exec (.loadRegs x) s =
      finish s ((s.advance.loadBytes (x.val + 1)).map fun bs =>
        { s.advance with v := loadRegsFrom s.v 0 bs }) := rfl

end Sys2Proof.Machine
end

