-- ==== Sys2Proof/Laws/PerInstr.lean ====
section
/-!
SUPPORT. Statements made per instruction. `RowOfTable`: the encoded word lies in the row of spec/opcode_table.json
that names the instruction, that is, the word masked by the row's mask is the row's match (R80).
-/

namespace Sys2Proof.Laws

/-- The row's match and mask of R80, as numbers. -/
def RowOfTable.row : Instr → Nat × Nat
  | .cls => (0x00E0, 0xFFFF)
  | .ret => (0x00EE, 0xFFFF)
  | .jp _ => (0x1000, 0xF000)
  | .call _ => (0x2000, 0xF000)
  | .seImm _ _ => (0x3000, 0xF000)
  | .sneImm _ _ => (0x4000, 0xF000)
  | .seReg _ _ => (0x5000, 0xF00F)
  | .ldImm _ _ => (0x6000, 0xF000)
  | .addImm _ _ => (0x7000, 0xF000)
  | .ldReg _ _ => (0x8000, 0xF00F)
  | .orReg _ _ => (0x8001, 0xF00F)
  | .andReg _ _ => (0x8002, 0xF00F)
  | .xorReg _ _ => (0x8003, 0xF00F)
  | .addReg _ _ => (0x8004, 0xF00F)
  | .subReg _ _ => (0x8005, 0xF00F)
  | .shr _ _ => (0x8006, 0xF00F)
  | .subnReg _ _ => (0x8007, 0xF00F)
  | .shl _ _ => (0x800E, 0xF00F)
  | .sneReg _ _ => (0x9000, 0xF00F)
  | .ldI _ => (0xA000, 0xF000)
  | .jpV0 _ => (0xB000, 0xF000)
  | .rnd _ _ => (0xC000, 0xF000)
  | .drw _ _ _ => (0xD000, 0xF000)
  | .skp _ => (0xE09E, 0xF0FF)
  | .sknp _ => (0xE0A1, 0xF0FF)
  | .ldVxDt _ => (0xF007, 0xF0FF)
  | .ldVxK _ => (0xF00A, 0xF0FF)
  | .ldDtVx _ => (0xF015, 0xF0FF)
  | .ldStVx _ => (0xF018, 0xF0FF)
  | .addI _ => (0xF01E, 0xF0FF)
  | .ldF _ => (0xF029, 0xF0FF)
  | .ldB _ => (0xF033, 0xF0FF)
  | .storeRegs _ => (0xF055, 0xF0FF)
  | .loadRegs _ => (0xF065, 0xF0FF)

/-- The encoded word matches its row of the opcode map (R80). -/
def RowOfTable.Statement (i : Instr) : Prop :=
  (encode i).toNat &&& (RowOfTable.row i).2 = (RowOfTable.row i).1

theorem RowOfTable.mask_high (w a : Nat) (ha : a < 16) (hw : w / 4096 = a) :
    w &&& 0xF000 = a * 4096 := by
  have e : w &&& 0xF000 = (w / 4096 &&& 0xF) * 4096 := by
    apply Nat.eq_of_testBit_eq
    intro i
    rw [show (4096 : Nat) = 2 ^ 12 from rfl, Nat.testBit_and, Nat.testBit_mul_two_pow, Nat.testBit_and,
      Nat.testBit_div_two_pow, show (0xF000 : Nat) = 0xF * 2 ^ 12 from rfl, Nat.testBit_mul_two_pow]
    by_cases hi : 12 ≤ i
    · simp [hi]
    · simp [hi]
  have m : a &&& 0xF = a % 16 := Nat.and_two_pow_sub_one_eq_mod a 4
  rw [e, hw, m, Nat.mod_eq_of_lt ha]

/-- Masking by a high nibble and low bits, for the masks F000, F00F and F0FF of the map. -/
theorem RowOfTable.mask_both (w a b k : Nat) (hk : k ≤ 8) (ha : a < 16) (hw : w / 4096 = a)
    (hb : w % 2 ^ k = b) : w &&& (0xF000 + (2 ^ k - 1)) = a * 4096 + b := by
  have hlow : (2 ^ k - 1) < 2 ^ 12 := by
    have : 2 ^ k ≤ 2 ^ 8 := Nat.pow_le_pow_right (by decide) hk
    omega
  have e1 : 0xF000 + (2 ^ k - 1) = 0xF000 ||| (2 ^ k - 1) :=
    (Nat.shiftLeft_add_eq_or_of_lt (i := 12) hlow 0xF)
  rw [e1, Nat.and_or_distrib_left, RowOfTable.mask_high w a ha hw, Nat.and_two_pow_sub_one_eq_mod, hb]
  have hb2 : b < 2 ^ 12 := by
    rw [← hb]
    have : w % 2 ^ k < 2 ^ k := Nat.mod_lt _ (Nat.two_pow_pos k)
    omega
  have := (Nat.shiftLeft_add_eq_or_of_lt (i := 12) hb2 a).symm
  rwa [Nat.shiftLeft_eq] at this

theorem RowOfTable.formatA (op : Nibble) (nnn : Imm12) :
    (wordA op nnn).toNat &&& 0xF000 = op.toNat * 4096 := by
  have := op.isLt
  have := nnn.isLt
  exact RowOfTable.mask_high _ _ op.isLt (by rw [wordA_toNat]; omega)

theorem RowOfTable.formatXI (op : Nibble) (x : Reg) (nn : Byte) :
    (wordXI op x nn).toNat &&& 0xF000 = op.toNat * 4096 := by
  have := x.isLt
  have := nn.isLt
  exact RowOfTable.mask_high _ _ op.isLt (by rw [wordXI_toNat]; omega)

theorem RowOfTable.formatXYN (op : Nibble) (x y : Reg) (n : Nibble) :
    (wordXYN op x y n).toNat &&& 0xF000 = op.toNat * 4096 := by
  have := x.isLt
  have := y.isLt
  have := n.isLt
  exact RowOfTable.mask_high _ _ op.isLt (by rw [wordXYN_toNat]; omega)

theorem RowOfTable.formatXY (op : Nibble) (x y : Reg) (n : Nibble) :
    (wordXYN op x y n).toNat &&& 0xF00F = op.toNat * 4096 + n.toNat := by
  have := x.isLt
  have := y.isLt
  have := n.isLt
  exact RowOfTable.mask_both _ _ _ 4 (by decide) op.isLt
    (by rw [wordXYN_toNat]; omega) (by rw [wordXYN_toNat]; omega)

theorem RowOfTable.formatXS (op : Nibble) (x : Reg) (nn : Byte) :
    (wordXI op x nn).toNat &&& 0xF0FF = op.toNat * 4096 + nn.toNat := by
  have := x.isLt
  have := nn.isLt
  exact RowOfTable.mask_both _ _ _ 8 (by decide) op.isLt
    (by rw [wordXI_toNat]; omega) (by rw [wordXI_toNat]; omega)

theorem RowOfTable.cls : RowOfTable.Statement .cls := rfl

theorem RowOfTable.ret : RowOfTable.Statement .ret := rfl

theorem RowOfTable.jp (nnn : Imm12) : RowOfTable.Statement (.jp nnn) :=
  RowOfTable.formatA _ nnn

theorem RowOfTable.call (nnn : Imm12) : RowOfTable.Statement (.call nnn) :=
  RowOfTable.formatA _ nnn

theorem RowOfTable.seImm (x : Reg) (nn : Byte) : RowOfTable.Statement (.seImm x nn) :=
  RowOfTable.formatXI _ x nn

theorem RowOfTable.sneImm (x : Reg) (nn : Byte) : RowOfTable.Statement (.sneImm x nn) :=
  RowOfTable.formatXI _ x nn

theorem RowOfTable.seReg (x y : Reg) : RowOfTable.Statement (.seReg x y) :=
  RowOfTable.formatXY _ x y _

theorem RowOfTable.ldImm (x : Reg) (nn : Byte) : RowOfTable.Statement (.ldImm x nn) :=
  RowOfTable.formatXI _ x nn

theorem RowOfTable.addImm (x : Reg) (nn : Byte) : RowOfTable.Statement (.addImm x nn) :=
  RowOfTable.formatXI _ x nn

theorem RowOfTable.ldReg (x y : Reg) : RowOfTable.Statement (.ldReg x y) :=
  RowOfTable.formatXY _ x y _

theorem RowOfTable.orReg (x y : Reg) : RowOfTable.Statement (.orReg x y) :=
  RowOfTable.formatXY _ x y _

theorem RowOfTable.andReg (x y : Reg) : RowOfTable.Statement (.andReg x y) :=
  RowOfTable.formatXY _ x y _

theorem RowOfTable.xorReg (x y : Reg) : RowOfTable.Statement (.xorReg x y) :=
  RowOfTable.formatXY _ x y _

theorem RowOfTable.addReg (x y : Reg) : RowOfTable.Statement (.addReg x y) :=
  RowOfTable.formatXY _ x y _

theorem RowOfTable.subReg (x y : Reg) : RowOfTable.Statement (.subReg x y) :=
  RowOfTable.formatXY _ x y _

theorem RowOfTable.shr (x y : Reg) : RowOfTable.Statement (.shr x y) :=
  RowOfTable.formatXY _ x y _

theorem RowOfTable.subnReg (x y : Reg) : RowOfTable.Statement (.subnReg x y) :=
  RowOfTable.formatXY _ x y _

theorem RowOfTable.shl (x y : Reg) : RowOfTable.Statement (.shl x y) :=
  RowOfTable.formatXY _ x y _

theorem RowOfTable.sneReg (x y : Reg) : RowOfTable.Statement (.sneReg x y) :=
  RowOfTable.formatXY _ x y _

theorem RowOfTable.ldI (nnn : Imm12) : RowOfTable.Statement (.ldI nnn) :=
  RowOfTable.formatA _ nnn

theorem RowOfTable.jpV0 (nnn : Imm12) : RowOfTable.Statement (.jpV0 nnn) :=
  RowOfTable.formatA _ nnn

theorem RowOfTable.rnd (x : Reg) (nn : Byte) : RowOfTable.Statement (.rnd x nn) :=
  RowOfTable.formatXI _ x nn

theorem RowOfTable.drw (x y : Reg) (n : Fin 16) : RowOfTable.Statement (.drw x y n) :=
  RowOfTable.formatXYN _ x y _

theorem RowOfTable.skp (x : Reg) : RowOfTable.Statement (.skp x) :=
  RowOfTable.formatXS _ x _

theorem RowOfTable.sknp (x : Reg) : RowOfTable.Statement (.sknp x) :=
  RowOfTable.formatXS _ x _

theorem RowOfTable.ldVxDt (x : Reg) : RowOfTable.Statement (.ldVxDt x) :=
  RowOfTable.formatXS _ x _

theorem RowOfTable.ldVxK (x : Reg) : RowOfTable.Statement (.ldVxK x) :=
  RowOfTable.formatXS _ x _

theorem RowOfTable.ldDtVx (x : Reg) : RowOfTable.Statement (.ldDtVx x) :=
  RowOfTable.formatXS _ x _

theorem RowOfTable.ldStVx (x : Reg) : RowOfTable.Statement (.ldStVx x) :=
  RowOfTable.formatXS _ x _

theorem RowOfTable.addI (x : Reg) : RowOfTable.Statement (.addI x) :=
  RowOfTable.formatXS _ x _

theorem RowOfTable.ldF (x : Reg) : RowOfTable.Statement (.ldF x) :=
  RowOfTable.formatXS _ x _

theorem RowOfTable.ldB (x : Reg) : RowOfTable.Statement (.ldB x) :=
  RowOfTable.formatXS _ x _

theorem RowOfTable.storeRegs (x : Reg) : RowOfTable.Statement (.storeRegs x) :=
  RowOfTable.formatXS _ x _

theorem RowOfTable.loadRegs (x : Reg) : RowOfTable.Statement (.loadRegs x) :=
  RowOfTable.formatXS _ x _

end Sys2Proof.Laws
end

