-- ==== Sys2Proof/Laws/Step.lean ====
section
/-!
SUPPORT. Fetch and step: what each can do, said once (R74, R76).
-/

namespace Sys2Proof.Machine

/-- A fetch in range gives the two bytes at `pc` (R74). -/
theorem State.fetchBytes_inRange {s : State} (h : FetchInRange s) :
    s.fetchBytes =
      .ok [Mem.read s.mem (s.pc.toNat % 4096), Mem.read s.mem ((s.pc.toNat + 1) % 4096)] := by
  rw [State.fetchBytes, resolveFrom_inRange _ 2 _ (.inr h)]
  rfl

/-- A fetch out of range reports the lowest address out of range (R74, R185). -/
theorem State.fetchBytes_outOfRange {s : State} (hp : s.cfg.addrPolicy = .fault) (h : 4095 ≤ s.pc.toNat) :
    s.fetchBytes = .error (.addressOutOfRange (max 4096 s.pc.toNat)) := by
  rw [State.fetchBytes, hp, resolveFrom_outOfRange 2 _ (by decide) (by omega)]

/-- Fetch and decode, where the fetch is in range: the decoder's answer on the word at `pc`. -/
theorem State.fetchInstr_inRange {s : State} (h : FetchInRange s) :
    s.fetchInstr =
      match decode s.cfg.admitAddImm (wordAtPc s) with
      | .ok i => .ok i
      | .error e => .error (causeOfDecodeError e) := by
  have e : decodeBytes s.cfg.admitAddImm
      [Mem.read s.mem (s.pc.toNat % 4096), Mem.read s.mem ((s.pc.toNat + 1) % 4096)] =
      match decode s.cfg.admitAddImm (wordAtPc s) with
      | .ok i => Except.ok (i, [])
      | .error e => Except.error e := rfl
  rw [State.fetchInstr, State.fetchBytes_inRange h]
  simp only [e]
  cases decode s.cfg.admitAddImm (wordAtPc s) <;> rfl

theorem State.fetchInstr_outOfRange {s : State} (hp : s.cfg.addrPolicy = .fault) (h : 4095 ≤ s.pc.toNat) :
    s.fetchInstr = .error (.addressOutOfRange (max 4096 s.pc.toNat)) := by
  rw [State.fetchInstr, State.fetchBytes_outOfRange hp h]

theorem step_faulted {s : State} {c : Cause} (h : s.status = .faulted c) : step s = .next s := by
  simp [step, h]

theorem step_running_ok {s : State} {i : Instr} (h : s.Running) (hf : s.fetchInstr = .ok i) :
    step s = exec i s := by
  have h : s.status = .running := h
  simp [step, h, hf]

theorem step_running_error {s : State} {c : Cause} (h : s.Running) (hf : s.fetchInstr = .error c) :
    step s = .next (s.takeFault c) := by
  have h : s.status = .running := h
  simp [step, h, hf]

/-- What a step can do: a faulted engine stays as it is; a running one takes the fatal condition of its fetch or
decode, or runs the instruction at `pc`. -/
theorem step_cases {s t : State} (h : step s = .next t) :
    (∃ c, s.status = .faulted c ∧ t = s) ∨
    (s.Running ∧ ∃ c, s.fetchInstr = .error c ∧ t = s.takeFault c) ∨
    (s.Running ∧ ∃ i, s.fetchInstr = .ok i ∧ exec i s = .next t) := by
  cases hs : s.status with
  | faulted c =>
    rw [step_faulted hs] at h
    exact .inl ⟨c, rfl, by simpa using h.symm⟩
  | running =>
    cases hf : s.fetchInstr with
    | error c =>
      rw [step_running_error hs hf] at h
      exact .inr (.inl ⟨hs, c, rfl, by simpa using h.symm⟩)
    | ok i =>
      rw [step_running_ok hs hf] at h
      exact .inr (.inr ⟨hs, i, rfl, h⟩)

/-- What an instruction can do: it takes a fatal condition, or it completes in the tick of its handler's state. -/
theorem exec_cases {i : Instr} {s t : State} (h : exec i s = .next t) :
    (∃ c, t = s.takeFault c) ∨ ∃ u, exec i s = finish s (.ok u) ∧ t = u.tick := by
  obtain ⟨r, hr⟩ := exec_finish i s
  rcases finish_cases (hr ▸ h) with ⟨u, rfl, hu⟩ | ⟨c, -, hc⟩
  · exact .inr ⟨u, hr, hu⟩
  · exact .inl ⟨c, hc⟩

theorem run_zero (s : State) : Sys2Proof.core.run 0 s = .next s := rfl

theorem run_succ {s t : State} (k : Nat) (h : step s = .next t) :
    Sys2Proof.core.run (k + 1) s = Sys2Proof.core.run k t := by
  have h : Sys2Proof.core.step s = .next t := h
  simp only [Host.Core.run, h]

end Sys2Proof.Machine
end

