-- ==== Sys2Proof/Tests/Slice0.lean ====
section
/-!
SUPPORT. The model's own tests: the well-formedness smoke test, one word written out from the opcode map R80 for each
constructor, single steps with the results of spec/95_test_vectors.md (the vector's id in the comment), and for each
statement with hypotheses a state and operands that meet them.
-/

namespace Sys2Proof.Tests

open Sys2Proof.Machine

/-! ### Helpers -/

/-- Sixteen registers, zero but for those listed. -/
def regs (l : List (Reg × Byte)) : Vector Byte 16 :=
  l.foldl (fun v p => v.set p.1 p.2) (Vector.replicate 16 0)

/-- Sixteen keys, up but for those listed. -/
def down (l : List (Fin 16)) : Vector Bool 16 :=
  l.foldl (fun v k => v.set k.val true k.isLt) (Vector.replicate 16 false)

/-- The reset memory with some bytes stored. -/
def bytes (l : List (Nat × Byte)) : Memory := Mem.writeAll [] l

/-- The reset state with registers and `I` set. -/
def start (l : List (Reg × Byte)) (i : Word) : State := { State.reset with v := regs l, idx := i }

/-- The same with `ADDR_POLICY = wrap`. -/
def wrapping (s : State) : State := { s with cfg := { s.cfg with addrPolicy := .wrap } }

/-- The same with `DRAW_EDGE = clip`. -/
def clipping (s : State) : State := { s with cfg := { s.cfg with drawEdge := .clip } }

/-- One step with a word placed at `pc` ends in a state that passes a check. -/
def after (w : Word) (s : State) (check : State → Bool) : Bool :=
  match step (s.placeWord w) with
  | .next t => check t
  | _ => false

/-- Whether a state runs. -/
def runs (s : State) : Bool := s.status == .running

/-- The cells that are on in a column, rows 0 to 31 in order. -/
def columnOn (f : Framebuffer) (x : Fin 64) : List Nat :=
  (List.range 32).filter fun y => f[x].toList[y]? == some true

/-! ### Well-formedness: the one check, `ADMIT_ADD_IMM` (R121) -/

theorem test_wf_add_imm_not_admitted : (Instr.addImm 0 1).wf false = false := by decide

theorem test_wf_add_imm_admitted : (Instr.addImm 0 1).wf true = true := by decide

theorem test_wf_others_need_no_parameter :
    (Instr.addReg 0 1).wf false = true ∧ Instr.cls.wf false = true ∧ (Instr.loadRegs 15).wf false = true := by
  decide

/-! ### Decoding: words written out from R80, fields from R71 -/

theorem test_decode_control :
    decode true 0x00E0 = .ok .cls ∧ decode true 0x00EE = .ok .ret ∧ decode true 0x1ABC = .ok (.jp 0xABC) ∧
    decode true 0x2ABC = .ok (.call 0xABC) ∧ decode true 0x3A5C = .ok (.seImm 10 0x5C) ∧
    decode true 0x4A5C = .ok (.sneImm 10 0x5C) ∧ decode true 0x5AB0 = .ok (.seReg 10 11) ∧
    decode true 0x9AB0 = .ok (.sneReg 10 11) ∧ decode true 0xBABC = .ok (.jpV0 0xABC) := by decide

theorem test_decode_arith :
    decode true 0x6A5C = .ok (.ldImm 10 0x5C) ∧ decode true 0x7A5C = .ok (.addImm 10 0x5C) ∧
    decode true 0x8AB0 = .ok (.ldReg 10 11) ∧ decode true 0x8AB1 = .ok (.orReg 10 11) ∧
    decode true 0x8AB2 = .ok (.andReg 10 11) ∧ decode true 0x8AB3 = .ok (.xorReg 10 11) ∧
    decode true 0x8AB4 = .ok (.addReg 10 11) ∧ decode true 0x8AB5 = .ok (.subReg 10 11) ∧
    decode true 0x8AB6 = .ok (.shr 10 11) ∧ decode true 0x8AB7 = .ok (.subnReg 10 11) ∧
    decode true 0x8ABE = .ok (.shl 10 11) := by decide

theorem test_decode_memory_draw_random :
    decode true 0xAABC = .ok (.ldI 0xABC) ∧ decode true 0xFA1E = .ok (.addI 10) ∧
    decode true 0xFA29 = .ok (.ldF 10) ∧ decode true 0xFA33 = .ok (.ldB 10) ∧
    decode true 0xFA55 = .ok (.storeRegs 10) ∧ decode true 0xFA65 = .ok (.loadRegs 10) ∧
    decode true 0xDAB7 = .ok (.drw 10 11 7) ∧ decode true 0xCA5C = .ok (.rnd 10 0x5C) := by decide

theorem test_decode_keys_timers :
    decode true 0xEA9E = .ok (.skp 10) ∧ decode true 0xEAA1 = .ok (.sknp 10) ∧
    decode true 0xFA07 = .ok (.ldVxDt 10) ∧ decode true 0xFA0A = .ok (.ldVxK 10) ∧
    decode true 0xFA15 = .ok (.ldDtVx 10) ∧ decode true 0xFA18 = .ok (.ldStVx 10) := by decide

/-- Section 2.1 of the vectors: words beside a row of the map are illegal. -/
theorem test_decode_illegal :
    [0x0000, 0x00E1, 0x00ED, 0x0AE0, 0x01EE, 0x00FD, 0x0123, 0x5011, 0x5FF8, 0x8018, 0x801F, 0x9011, 0x900F,
      0xE09F, 0xE0A0, 0xE000, 0xF000, 0xF075, 0xF030, 0xFFFF].all
      (fun w : Word => decode true w == .error (.invalidOpcode w)) = true := by decide

theorem test_decode_add_imm_by_parameter :
    decode true 0x7001 = .ok (.addImm 0 1) ∧ decode false 0x7001 = .error (.invalidOpcode 0x7001) := by decide

/-- Two bytes in fetch order, the high byte first (R54), the rest handed back; one byte is no instruction. -/
theorem test_decode_bytes :
    decodeBytes true [0x6A, 0x7F, 0x12] = .ok (.ldImm 10 0x7F, [0x12]) ∧
    decodeBytes true [0x6A] = .error (.truncated 1) := by decide

theorem test_decode_table_word :
    decodeTableWord 16 0xD125 = some (.drw 1 2 5) ∧ decodeTableWord 16 0x8018 = none := by decide

theorem test_encode_bytes : encodeBytes (.jp 0x228) = [0x12, 0x28] := by decide

/-! ### Control flow -/

/-- T1. -/
theorem test_cls : after 0x00E0
    { State.reset with fb := Framebuffer.setCell (Framebuffer.setCell blankFramebuffer 3 2 true) 63 31 true }
    (fun t => columnOn t.fb 3 == [] && columnOn t.fb 63 == [] && t.pc == 0x0202) = true := by decide

/-- T3. -/
theorem test_ret : after 0x00EE
    { State.reset with pc := 0x020C, sp := 1, stack := (Vector.replicate 16 0).set 0 0x0206 }
    (fun t => t.pc == 0x0206 && t.sp == 0 && t.stack[0] == 0x0206) = true := by decide

/-- T5. -/
theorem test_ret_underflow : after 0x00EE { State.reset with dt := 5 }
    (fun t => t.pc == 0x0200 && t.status == .faulted .stackUnderflow && t.dt == 5) = true := by decide

/-- T7. -/
theorem test_jp : after 0x1200 { State.reset with dt := 3, st := 1 }
    (fun t => t.pc == 0x0200 && t.dt == 2 && t.st == 0) = true := by decide

/-- T10. -/
theorem test_call : after 0x2300 { State.reset with sp := 15 }
    (fun t => t.pc == 0x0300 && t.sp == 16 && t.stack[15] == 0x0202) = true := by decide

/-- T11. -/
theorem test_call_overflow : after 0x2300 { State.reset with sp := 16, dt := 5 }
    (fun t => t.pc == 0x0200 && t.sp == 16 && t.status == .faulted .stackOverflow && t.dt == 5) = true := by decide

/-- T12, T13. -/
theorem test_se_imm : after 0x332A (start [(3, 0x2A)] 0) (fun t => t.pc == 0x0204) = true ∧
    after 0x332A (start [(3, 0x2B)] 0) (fun t => t.pc == 0x0202) = true := by decide

/-- T15, T16. -/
theorem test_sne_imm : after 0x432A (start [(3, 0x2A)] 0) (fun t => t.pc == 0x0202) = true ∧
    after 0x432A (start [] 0) (fun t => t.pc == 0x0204) = true := by decide

/-- T18, T19. -/
theorem test_se_reg : after 0x5010 (start [(0, 3), (1, 4)] 0) (fun t => t.pc == 0x0202) = true ∧
    after 0x5AA0 (start [(10, 0x77)] 0) (fun t => t.pc == 0x0204) = true := by decide

/-- T20, T21. -/
theorem test_sne_reg : after 0x9010 { start [(0, 3), (1, 4)] 0 with pc := 0x0206 } (fun t => t.pc == 0x020A) = true ∧
    after 0x9010 (start [(0, 3), (1, 3)] 0) (fun t => t.pc == 0x0202) = true := by decide

/-- T24, T25. -/
theorem test_jp_v0 : after 0xBFFF (start [(0, 0xFF)] 0) (fun t => t.pc == 0x10FE) = true ∧
    after 0xB300 (start [(1, 0x55)] 0) (fun t => t.pc == 0x0300) = true := by decide

/-! ### Arithmetic and logic -/

/-- T40, T41. -/
theorem test_ld_imm : after 0x6A7F State.reset (fun t => t.v == regs [(10, 0x7F)]) = true ∧
    after 0x6F05 State.reset (fun t => t.v == regs [(15, 0x05)]) = true := by decide

/-- T43. -/
theorem test_add_imm : after 0x7001 (start [(0, 0xFF), (15, 7)] 0) (fun t => t.v == regs [(15, 7)]) = true := by
  decide

/-- T46. -/
theorem test_add_imm_not_admitted :
    after 0x7001 { start [(0, 2)] 0 with cfg := { Config.defaults with admitAddImm := false } }
      (fun t => t.pc == 0x0200 && t.status == .faulted (.invalidOpcode 0x7001)) = true := by decide

/-- T47. -/
theorem test_ld_reg : after 0x8010 (start [(1, 0x42)] 0) (fun t => t.v == regs [(0, 0x42), (1, 0x42)]) = true := by
  decide

/-- T49, T53. -/
theorem test_or : after 0x8011 (start [(0, 0xF0), (1, 0x0F), (15, 1)] 0)
      (fun t => t.v == regs [(0, 0xFF), (1, 0x0F), (15, 1)]) = true ∧
    after 0x8F11 (start [(15, 1), (1, 0x80)] 0) (fun t => t.v == regs [(15, 0x81), (1, 0x80)]) = true := by decide

/-- T50. -/
theorem test_and : after 0x8012 (start [(0, 0xF0), (1, 0x3C), (15, 1)] 0)
    (fun t => t.v == regs [(0, 0x30), (1, 0x3C), (15, 1)]) = true := by decide

/-- T51. -/
theorem test_xor : after 0x8013 (start [(0, 0xF0), (1, 0x3C), (15, 1)] 0)
    (fun t => t.v == regs [(0, 0xCC), (1, 0x3C), (15, 1)]) = true := by decide

/-- T58, T56. -/
theorem test_add_reg : after 0x8014 (start [(0, 0xFE), (1, 1), (15, 1)] 0)
      (fun t => t.v == regs [(0, 0xFF), (1, 1), (15, 0)]) = true ∧
    after 0x8014 (start [(0, 0x80), (1, 0x80)] 0) (fun t => t.v == regs [(1, 0x80), (15, 1)]) = true := by decide

/-- T60, T61. -/
theorem test_add_reg_flag_operand : after 0x8F14 (start [(15, 0xF0), (1, 0x20)] 0)
      (fun t => t.v == regs [(15, 0x10), (1, 0x20)]) = true ∧
    after 0x80F4 (start [(0, 0xFF), (15, 1)] 0) (fun t => t.v == regs [(15, 1)]) = true := by decide

/-- T64, T65. -/
theorem test_sub_reg : after 0x8015 (start [(0, 3), (1, 5), (15, 1)] 0)
      (fun t => t.v == regs [(0, 0xFE), (1, 5)]) = true ∧
    after 0x8015 (start [(0, 7), (1, 7)] 0) (fun t => t.v == regs [(1, 7), (15, 1)]) = true := by decide

/-- T68, T70. -/
theorem test_sub_reg_flag_operand : after 0x8F15 (start [(15, 5), (1, 3)] 0)
      (fun t => t.v == regs [(15, 2), (1, 3)]) = true ∧
    after 0x80F5 (start [(0, 5), (15, 3)] 0) (fun t => t.v == regs [(0, 2), (15, 1)]) = true := by decide

/-- T75, T76. -/
theorem test_shr : after 0x8016 (start [(0, 4), (1, 0xFF)] 0) (fun t => t.v == regs [(0, 2), (1, 0xFF)]) = true ∧
    after 0x8F06 (start [(15, 3)] 0) (fun t => t.v == regs []) = true := by decide

/-- T79, T81. -/
theorem test_subn_reg : after 0x8017 (start [(0, 5), (1, 3), (15, 1)] 0)
      (fun t => t.v == regs [(0, 0xFE), (1, 3)]) = true ∧
    after 0x8F17 (start [(15, 3), (1, 5)] 0) (fun t => t.v == regs [(15, 2), (1, 5)]) = true := by decide

/-- T82, T86. -/
theorem test_shl : after 0x801E (start [(0, 0x81)] 0) (fun t => t.v == regs [(0, 2), (15, 1)]) = true ∧
    after 0x8F0E (start [(15, 0x81)] 0) (fun t => t.v == regs [(15, 2)]) = true := by decide

/-! ### Memory and index -/

/-- T100. -/
theorem test_ld_i : after 0xA300 (start [] 0xFFFF) (fun t => t.idx == 0x0300) = true := by decide

/-- T103. -/
theorem test_add_i : after 0xF01E (start [(0, 1), (15, 7)] 0xFFFF)
    (fun t => t.idx == 0x0000 && t.v == regs [(0, 1), (15, 7)]) = true := by decide

/-- T106, T110. -/
theorem test_ld_f : after 0xF029 (start [(0, 5)] 0) (fun t => t.idx == 0x0069) = true ∧
    after 0xF029 (start [(0, 0xFF)] 0) (fun t => t.idx == 0x054B) = true := by decide

/-- T111. -/
theorem test_ld_b : after 0xF033 (start [(0, 0x9C)] 0x0300)
    (fun t => Mem.read t.mem 0x300 == 1 && Mem.read t.mem 0x301 == 5 && Mem.read t.mem 0x302 == 6) = true := by
  decide

/-- T117. -/
theorem test_ld_b_past_memory : after 0xF033 (start [(0, 0xC7)] 0x0FFE)
    (fun t => t.status == .faulted (.addressOutOfRange 0x1000) && Mem.read t.mem 0xFFE == 0) = true := by decide

/-- T122. -/
theorem test_store_regs : after 0xF155 (start [(0, 0x11), (1, 0x22), (2, 0x33)] 0x0300)
    (fun t => Mem.read t.mem 0x300 == 0x11 && Mem.read t.mem 0x301 == 0x22 && Mem.read t.mem 0x302 == 0 &&
      t.idx == 0x0300) = true := by decide

/-- T126. -/
theorem test_store_regs_wraps : after 0xF155 (wrapping (start [(0, 0x11), (1, 0x22)] 0x0FFF))
    (fun t => Mem.read t.mem 0xFFF == 0x11 && Mem.read t.mem 0 == 0x22) = true := by decide

/-- T128. -/
theorem test_load_regs : after 0xF265
    { start [(3, 0xEE)] 0x0300 with mem := bytes [(0x300, 1), (0x301, 5), (0x302, 6), (0x303, 7)] }
    (fun t => t.v == regs [(0, 1), (1, 5), (2, 6), (3, 0xEE)] && t.idx == 0x0300) = true := by decide

/-- T130. -/
theorem test_load_regs_past_memory : after 0xF165
    { start [(0, 0xAA), (1, 0xBB)] 0x0FFF with mem := bytes [(0xFFF, 0x77)] }
    (fun t => t.v == regs [(0, 0xAA), (1, 0xBB)] && t.status == .faulted (.addressOutOfRange 0x1000)) = true := by
  decide

/-! ### Draw -/

/-- T142: cells (3,2) off, (4,2), (5,2), (6,2) on, and the flag set. -/
theorem test_drw_collides : after 0xD121
    { start [(1, 3), (2, 2)] 0x0050 with fb := Framebuffer.setCell blankFramebuffer 3 2 true }
    (fun t => columnOn t.fb 3 == [] && columnOn t.fb 4 == [2] && columnOn t.fb 6 == [2] && columnOn t.fb 7 == [] &&
      t.v[15] == 1) = true := by decide

/-- T147, T148: the same sprite at the corner under both edge policies. -/
theorem test_drw_edges :
    after 0xD012 (start [(0, 0x3E), (1, 0x1F)] 0x0050)
      (fun t => columnOn t.fb 62 == [0, 31] && columnOn t.fb 63 == [31] && columnOn t.fb 0 == [31] &&
        columnOn t.fb 1 == [0, 31]) = true ∧
    after 0xD012 (clipping (start [(0, 0x3E), (1, 0x1F)] 0x0050))
      (fun t => columnOn t.fb 62 == [31] && columnOn t.fb 63 == [31] && columnOn t.fb 0 == [] &&
        columnOn t.fb 1 == []) = true := by decide

/-! ### Keypad, random source, timers -/

/-- T160, T162. -/
theorem test_skp : after 0xE29E { start [(2, 7)] 0 with keys := down [7] } (fun t => t.pc == 0x0204) = true ∧
    after 0xE29E { start [(2, 0x10)] 0 with keys := down [0] }
      (fun t => t.pc == 0x0200 && t.status == .faulted (.keyIndexOutOfRange 0x10)) = true := by decide

/-- T164, T165. -/
theorem test_sknp : after 0xE2A1 (start [(2, 7)] 0) (fun t => t.pc == 0x0204) = true ∧
    after 0xE2A1 { start [(2, 7)] 0 with keys := down [7] } (fun t => t.pc == 0x0202) = true := by decide

/-- T169. -/
theorem test_key_wait_hit : after 0xF30A { start [] 0 with keys := down [9, 7] }
    (fun t => t.v == regs [(3, 7)] && t.pc == 0x0202) = true := by decide

/-- T170. -/
theorem test_key_wait_miss : after 0xF30A { start [(3, 0x33)] 0 with dt := 5, st := 1 }
    (fun t => t.v == regs [(3, 0x33)] && t.pc == 0x0200 && t.dt == 4 && t.st == 0) = true := by decide

/-- T180, T184: what the instruction does with the byte drawn. -/
theorem test_rnd_masks : (State.reset.maskInto 3 0x0F 0xA7).v = regs [(3, 7)] ∧
    ((start [(3, 0x0F)] 0).maskInto 3 0xF0 0x0F).v = regs [] := by decide

/-- R170: one byte is consumed, whatever it is. -/
theorem test_rnd_draws_once : after 0xC30F State.reset (fun t => t.draws == 1 && t.pc == 0x0202) = true := by decide

/-- T190, T193, T197. -/
theorem test_timers : after 0xF207 { start [] 0 with dt := 5 } (fun t => t.v == regs [(2, 5)] && t.dt == 4) = true ∧
    after 0xF015 (start [(0, 3)] 0) (fun t => t.dt == 2) = true ∧
    after 0xF118 (start [(1, 0x0A)] 0) (fun t => t.st == 9) = true := by decide

/-! ### Fetch, construction, faults -/

/-- T28, T29: the top of memory under `fault`, and an odd `pc`. -/
theorem test_fetch : after 0x6000 { State.reset with pc := 0x0FFF }
      (fun t => t.pc == 0x0FFF && t.status == .faulted (.addressOutOfRange 0x1000)) = true ∧
    after 0x60AB { State.reset with pc := 0x0301 } (fun t => t.v == regs [(0, 0xAB)] && t.pc == 0x0303) = true := by
  decide

/-- S6: a fetch that wraps, its second byte at address 0. -/
theorem test_fetch_wraps :
    after 0x6A55 (wrapping { State.reset with pc := 0x0FFF })
      (fun t => t.v == regs [(10, 0x55)] && t.pc == 0x1001) = true := by decide

/-- C1: construction from the empty image with the default font lists no byte of memory. -/
theorem test_constructed_memory_empty : constructedMemory Config.defaults [] = [] := by
  have hf : Mem.wf (Mem.writeFrom [] 0x050 Config.defaults.font.toList) = true :=
    Mem.wf_writeFrom _ _ (by simp) Mem.wf_nil
  rw [constructedMemory, Mem.writeFrom]
  refine Mem.ext_read hf Mem.wf_nil fun a => ?_
  rw [Mem.read_writeFrom, Mem.read_nil, Mem.unlisted]
  by_cases h : 0x050 ≤ a ∧ a < 0x0A0
  · rw [dif_pos (by simp; omega), dif_pos h]; simp [Config.defaults]
  · rw [dif_neg (by simp; omega), dif_neg h]

/-- C1: construction from the empty image is the reset state. -/
theorem test_construct_empty : construct Config.defaults [] = .next State.reset := by
  rw [construct, if_neg (by decide), test_constructed_memory_empty]; rfl

/-- C1, C6: the cause stays the report. -/
theorem test_reset_steps :
    step State.reset = .next { State.reset with status := .faulted (.invalidOpcode 0) } ∧
    step { State.reset with status := .faulted (.invalidOpcode 0), dt := 5 } =
      .next { State.reset with status := .faulted (.invalidOpcode 0), dt := 5 } := ⟨rfl, rfl⟩

/-- C4. -/
theorem test_construct_too_large :
    construct Config.defaults (List.replicate 3585 0) = .fault (.programTooLarge 3585) := by
  rw [construct, List.length_replicate]; rfl

/-- The code column of the table of R180, conditions 1 to 6. -/
theorem test_fatal_condition_codes :
    [Cause.code (.invalidOpcode 0), Cause.code .stackOverflow, Cause.code .stackUnderflow,
      Fault.code (.programTooLarge 3585), Cause.code (.addressOutOfRange 4096),
      Cause.code (.keyIndexOutOfRange 16)] = [1, 2, 3, 4, 5, 6] := by decide

/-- C7: the host's moves on a faulted engine. -/
theorem test_host_moves_after_fault :
    (setKey 3 true { State.reset with status := .faulted .stackOverflow, dt := 5 }).keys = down [3] ∧
    readDelayTimer { State.reset with status := .faulted .stackOverflow, dt := 5 } = 5 ∧
    stepReport { State.reset with status := .faulted .stackOverflow } = some .stackOverflow := by decide

/-- C5: the bytes of R33 at both ends of the font, and zero around it. -/
theorem test_font_in_memory :
    Mem.read State.reset.mem 0x050 = 0xF0 ∧ Mem.read State.reset.mem 0x051 = 0x90 ∧
    Mem.read State.reset.mem 0x09D = 0xF0 ∧ Mem.read State.reset.mem 0x09F = 0x80 ∧
    Mem.read State.reset.mem 0x04F = 0 ∧ Mem.read State.reset.mem 0x0A0 = 0 := by decide

/-- A word placed where the next step fetches is run by it, right after reset. -/
theorem test_with_fetch_word :
    step (State.reset.withFetchWord 16 0x6A7F) = exec (.ldImm 10 0x7F) (State.reset.withFetchWord 16 0x6A7F) :=
  rfl

/-! ### Witnesses: the hypotheses of each statement, met together

One theorem for each statement that has hypotheses; the values at the ends of each clause's range are among them. -/

/-- A jump to itself at 0x200, right after reset. -/
def looping : State := State.reset.placeWord 0x1200

/-- A store of `V[0]`, `V[1]` to the two bytes after it. -/
def storing : State := { (start [(0, 0x6A), (1, 0x55)] 0x0202).placeWord 0xF155 with dt := 1 }

theorem witness_construction_copies :
    ([] : List Byte).length ≤ 3584 ∧ (List.replicate 3584 (0 : Byte)).length ≤ 3584 := by
  rw [List.length_replicate]; decide

theorem witness_construction_fails :
    3584 < (List.replicate 3585 (0 : Byte)).length ∧ (List.replicate 3584 (0 : Byte)).length ≤ 3584 := by
  rw [List.length_replicate, List.length_replicate]; decide

theorem witness_step_runs :
    (looping.Running ∧ FetchInRange looping ∧ decode looping.cfg.admitAddImm (wordAtPc looping) = .ok (.jp 0x200)) ∧
    FetchInRange { State.reset with pc := 0x0FFE } ∧ FetchInRange (wrapping { State.reset with pc := 0xFFFF }) :=
  ⟨⟨rfl, .inr (by decide), rfl⟩, .inr (by decide), .inl rfl⟩

theorem witness_illegal_word_is_fatal :
    State.reset.Running ∧ FetchInRange State.reset ∧
    IllegalWord State.reset.cfg.admitAddImm (wordAtPc State.reset).toNat :=
  ⟨rfl, .inr (by decide), .inl (by decide)⟩

/-- Each way a step can end faulted: the fetch, the word, the handler of each kind. -/
theorem witness_fatal_conditions : State.reset.Running ∧ ¬FetchInRange { State.reset with pc := 0x0FFF } ∧
    IllegalWord true 0x0000 ∧ HandlerRaises { State.reset with sp := 16 } (.call 0x300) ∧
    HandlerRaises State.reset .ret ∧ HandlerRaises (start [(2, 16)] 0) (.skp 2) ∧
    HandlerRaises (start [] 0x0FFE) (.ldB 0) ∧ HandlerRaises (start [] 0x1000) (.drw 0 1 1) ∧
    ¬HandlerRaises (start [] 0x0FFD) (.ldB 0) ∧ ¬HandlerRaises (start [] 0xFFFF) (.drw 0 1 0) := by
  refine ⟨rfl, ?_, ?_, ?_, ?_, ?_, ?_, ?_, ?_, ?_⟩ <;>
    (simp only [FetchInRange, IllegalWord, HandlerRaises, DataInRange]; decide)

/-- One illegal word of each family of R82, and a legal one. -/
theorem witness_illegal_words :
    IllegalWord true 0x00E1 ∧ IllegalWord true 0x501F ∧ IllegalWord false 0x7000 ∧ IllegalWord true 0x8AB8 ∧
    IllegalWord true 0x9011 ∧ IllegalWord true 0xE09F ∧ IllegalWord true 0xFFFF ∧
    ¬IllegalWord true 0x00E0 ∧ ¬IllegalWord true 0x7000 ∧ ¬IllegalWord true 0xFF65 := by
  refine ⟨?_, ?_, ?_, ?_, ?_, ?_, ?_, ?_, ?_, ?_⟩ <;> (unfold IllegalWord; decide)

theorem witness_fetch_past_memory :
    ({ State.reset with pc := 0x0FFF } : State).Running ∧ State.reset.cfg.addrPolicy = .fault ∧
    4095 ≤ ({ State.reset with pc := 0x0FFF } : State).pc.toNat ∧
    4095 ≤ ({ State.reset with pc := 0xFFFF } : State).pc.toNat :=
  ⟨rfl, rfl, by decide, by decide⟩

theorem witness_faulted :
    ({ State.reset with status := .faulted .stackOverflow } : State).status = .faulted .stackOverflow := rfl

theorem witness_fatal_step : State.reset.Running ∧ ∃ t, step State.reset = .next t ∧ ¬t.Running :=
  ⟨rfl, _, rfl, Status.noConfusion⟩

theorem witness_safe_run : 1 ≤ 2 ∧ SafeRun 2 looping := ⟨by decide, _, rfl, rfl⟩

theorem witness_wf : (Instr.addImm 15 0xFF).wf true = true ∧ (Instr.shr 15 15).wf false = true ∧
    (Instr.jp 0xFFF).wf false = true := by decide

theorem witness_decodes : decode true 0x8FF6 = .ok (.shr 15 15) ∧ decode false 0xFF65 = .ok (.loadRegs 15) := by
  decide

theorem witness_ret : 0 < ({ State.reset with sp := 1 } : State).sp.val ∧
    0 < ({ State.reset with sp := 16 } : State).sp.val ∧ State.reset.sp.val = 0 := by decide

theorem witness_call : State.reset.sp.val < 16 ∧ ({ State.reset with sp := 15 } : State).sp.val < 16 ∧
    ({ State.reset with sp := 16 } : State).sp.val = 16 := by decide

theorem witness_nested_calls : State.reset.Running ∧ State.reset.sp.val = 0 ∧
    (List.replicate 16 (0x300 : Imm12)).length = 16 ∧ ({ State.reset with sp := 16 } : State).sp.val = 16 :=
  ⟨rfl, rfl, rfl, rfl⟩

theorem witness_empty_return : State.reset.Running ∧ State.reset.sp.val = 0 := ⟨rfl, rfl⟩

theorem witness_call_then_return : State.reset.Running ∧
    ∃ t, exec (.call 0x300) State.reset = .next t ∧ t.Running ∧ t.sp = t.sp ∧ t.stack = t.stack :=
  ⟨rfl, _, rfl, rfl, rfl, rfl⟩

/-- The two arms of the clause on `VF`, and the carry at 255 and 256 (T58, T56). -/
theorem witness_add_with_carry : (0 : Reg) ≠ 15 ∧ ¬256 ≤ (0xFE : Byte).toNat + (0x01 : Byte).toNat ∧
    256 ≤ (0x80 : Byte).toNat + (0x80 : Byte).toNat := by decide

theorem witness_subtract : (14 : Reg) ≠ 15 ∧ (7 : Byte).toNat ≤ (7 : Byte).toNat ∧
    ¬(1 : Byte).toNat ≤ (0 : Byte).toNat := by decide

theorem witness_shift : (15 : Reg) = 15 ∧ ¬(14 : Reg) = 15 := by decide

/-- Three bytes in range at the top of memory, and past it under `wrap` (T116, T118). -/
theorem witness_bcd : DataInRange (start [(0, 0xC7)] 0x0FFD) 3 ∧ DataInRange (wrapping (start [(0, 0xC7)] 0xFFFF)) 3 :=
  ⟨.inr (.inr (by decide)), .inr (.inl rfl)⟩

theorem witness_bulk_store : DataInRange (start [] 0x0FF0) ((15 : Reg).val + 1) ∧
    DataInRange (start [] 0x0FFF) ((0 : Reg).val + 1) ∧ (15 : Reg) ≤ 15 ∧
    5 ∉ (List.range 16).map (dataAddr (start [] 0x0FF0)) :=
  ⟨.inr (.inr (by decide)), .inr (.inr (by decide)), by decide, by decide⟩

theorem witness_bulk_load : DataInRange (start [] 0x0FFE) ((1 : Reg).val + 1) ∧ (1 : Reg) ≤ 1 ∧ ¬(2 : Reg) ≤ 1 :=
  ⟨.inr (.inr (by decide)), by decide, by decide⟩

theorem witness_store_then_load : storing.Running ∧ ∃ t, exec (.storeRegs 1) storing = .next t ∧ t.Running :=
  ⟨rfl, _, rfl, rfl⟩

/-- The lowest `I` at which each access faults: 4094 for three bytes, 4095 for two, 4096 for one. -/
theorem witness_data_past_memory : (start [] 0x0FFE).cfg.addrPolicy = .fault ∧
    4096 ≤ (start [] 0x0FFE).idx.toNat + 2 ∧ 4096 ≤ (start [] 0x0FFF).idx.toNat + (1 : Reg).val ∧
    4096 ≤ (start [] 0x1000).idx.toNat + (0 : Reg).val ∧
    0 < (1 : Fin 16).val ∧ 4096 ≤ (start [] 0x1000).idx.toNat + (1 : Fin 16).val - 1 := by decide

theorem witness_stored_code : storing.Running ∧ (1 : Reg) ≤ 1 ∧ storing.idx = storing.pc + 2 ∧
    storing.pc.toNat + 4 ≤ 4096 ∧ ∃ t, exec (.storeRegs 1) storing = .next t ∧ t.Running :=
  ⟨rfl, by decide, rfl, by decide, _, rfl, rfl⟩

/-- Glyph 0 at column 3, row 2 (T140). -/
def drawing : State := start [(1, 3), (2, 2)] 0x0050

theorem drawing_covers : SpriteCovers drawing 3 2 1 3 2 := ⟨0, 0, by decide, by decide, by decide, by decide, by decide⟩

/-- Column 7 of row 0 of the glyph is past its set bits. -/
theorem drawing_leaves : ¬SpriteCovers drawing 3 2 1 7 2 := by
  rintro ⟨r, c, hr, hc, hb, hx, -⟩
  obtain rfl : r = 0 := by omega
  have hx : 7 = (3 + c) % 64 := hx
  obtain rfl : c = 4 := by omega
  exact absurd hb (by decide)

theorem witness_draw_in_range : DataInRange drawing 5 ∧ DataInRange (start [] 0xFFFF) 0 ∧
    DataInRange (start [] 0x0FF1) (15 : Fin 16).val :=
  ⟨.inr (.inr (by decide)), .inl rfl, .inr (.inr (by decide))⟩

/-- The clauses on a covered cell, a cell left alone, a collision (T142) and none. -/
theorem witness_draw :
    DataInRange drawing (1 : Fin 16).val ∧ SpriteCovers drawing 3 2 1 3 2 ∧ ¬SpriteCovers drawing 3 2 1 7 2 ∧
    (∃ cx cy, SpriteCovers drawing 3 2 1 cx cy ∧
      Framebuffer.cell (Framebuffer.setCell drawing.fb 3 2 true) cx cy = true) ∧
    ¬∃ cx cy, SpriteCovers drawing 3 2 1 cx cy ∧ Framebuffer.cell drawing.fb cx cy = true :=
  ⟨.inr (.inr (by decide)), drawing_covers, drawing_leaves, ⟨3, 2, drawing_covers, by decide⟩,
    fun ⟨cx, cy, _, h⟩ => by rw [show drawing.fb = blankFramebuffer from rfl, Framebuffer.cell_blank] at h; cases h⟩

theorem witness_draw_twice : (1 : Reg) ≠ 15 ∧ (2 : Reg) ≠ 15 ∧ DataInRange drawing (1 : Fin 16).val ∧
    (∃ t u, exec (.drw 1 2 1) drawing = .next t ∧ exec (.drw 1 2 1) t = .next u) ∧
    (∀ cx cy, Framebuffer.cell drawing.fb cx cy = false) ∧
    ∃ cx cy, SpriteCovers drawing ((drawing.v[(1 : Reg)]).toNat % 64) ((drawing.v[(2 : Reg)]).toNat % 32) 1 cx cy :=
  ⟨by decide, by decide, .inr (.inr (by decide)), ⟨_, _, rfl, rfl⟩, Framebuffer.cell_blank, 3, 2, drawing_covers⟩

/-- The last start column and row at which a sprite of 8 columns and 15 rows is wholly inside. -/
theorem witness_edges_agree :
    ((start [(1, 56), (2, 17)] 0x0050).v[(1 : Reg)]).toNat % 64 ≤ 56 ∧
    ((start [(1, 56), (2, 17)] 0x0050).v[(2 : Reg)]).toNat % 32 + (15 : Fin 16).val ≤ 32 ∧
    (∃ t, exec (.drw 1 2 15) (start [(1, 56), (2, 17)] 0x0050) = .next t) ∧
    ∃ u, exec (.drw 1 2 15) (clipping (start [(1, 56), (2, 17)] 0x0050)) = .next u :=
  ⟨by decide, by decide, ⟨_, rfl⟩, _, rfl⟩

theorem witness_key_skips : ((start [(2, 15)] 0).v[(2 : Reg)]).toNat = (15 : Fin 16).val ∧
    ((start [] 0).v[(2 : Reg)]).toNat = (0 : Fin 16).val := by decide

theorem witness_key_index : 15 < ((start [(2, 16)] 0).v[(2 : Reg)]).toNat ∧
    15 < ((start [(2, 255)] 0).v[(2 : Reg)]).toNat := by decide

/-- Key 0 alone, keys 9 and 15, and no key. -/
theorem witness_key_wait :
    ((down [0])[(0 : Fin 16)] = true ∧ ∀ j : Fin 16, j < 0 → (down [0])[j] = false) ∧
    ((down [9, 15])[(9 : Fin 16)] = true ∧ ∀ j : Fin 16, j < 9 → (down [9, 15])[j] = false) ∧
    ∀ j : Fin 16, (down [])[j] = false := by decide

theorem witness_key_wait_miss : (State.reset.placeWord 0xF30A).Running ∧
    (State.reset.placeWord 0xF30A).fetchInstr = .ok (.ldVxK 3) ∧
    ∀ k : Fin 16, (State.reset.placeWord 0xF30A).keys[k] = false := ⟨rfl, rfl, by decide⟩

/-- A mask bit that is off. -/
theorem witness_rnd : (0x0F : Byte).getLsbD 4 = false ∧ (0x00 : Byte).getLsbD 0 = false := by decide

/-- A completed write of the delay timer, and a fatal `RET` with a timer running. -/
theorem witness_ticks :
    (∃ t, exec (.ldDtVx 0) (start [(0, 3)] 0) = .next t ∧ t.Running) ∧
    (∃ t, exec .ret { State.reset with dt := 5 } = .next t ∧ ¬t.Running) ∧ (start [(0, 3)] 0).Running :=
  ⟨⟨_, rfl, rfl⟩, ⟨_, rfl, Status.noConfusion⟩, rfl⟩

/-- The invariant in a state with listed memory. -/
theorem witness_memory_invariant : storing.Inv ∧ ∃ t, step storing = .next t := ⟨rfl, _, rfl⟩

theorem witness_next : ∃ t, step looping = .next t := ⟨_, rfl⟩

theorem witness_not_a_drawer : Instr.ldI 0x300 ≠ .cls ∧ (∀ x y n, Instr.ldI 0x300 ≠ .drw x y n) ∧
    ∃ t, exec (.ldI 0x300) State.reset = .next t :=
  ⟨Instr.noConfusion, fun _ _ _ => Instr.noConfusion, _, rfl⟩

theorem witness_not_a_store : (∀ x, Instr.loadRegs 3 ≠ .ldB x ∧ Instr.loadRegs 3 ≠ .storeRegs x) ∧
    ∃ t, exec (.loadRegs 3) State.reset = .next t :=
  ⟨fun _ => ⟨Instr.noConfusion, Instr.noConfusion⟩, _, rfl⟩

theorem witness_stack_kept : (∀ nnn, Instr.jp 0x200 ≠ .call nnn) ∧ Instr.jp 0x200 ≠ .ret ∧
    ∃ t, exec (.jp 0x200) State.reset = .next t :=
  ⟨fun _ => Instr.noConfusion, Instr.noConfusion, _, rfl⟩

/-- A destination that is not `VF`, and an instruction without one. -/
theorem witness_vf_kept : (14 : Reg) ≠ 15 ∧ (∃ t, exec (.loadRegs 14) State.reset = .next t) ∧
    ∃ t, exec (.skp 0) State.reset = .next t := ⟨by decide, ⟨_, rfl⟩, _, rfl⟩

theorem witness_index_kept : (∀ nnn, Instr.storeRegs 15 ≠ .ldI nnn) ∧
    (∀ x, Instr.storeRegs 15 ≠ .addI x ∧ Instr.storeRegs 15 ≠ .ldF x) ∧
    ∃ t, exec (.storeRegs 15) State.reset = .next t :=
  ⟨fun _ => Instr.noConfusion, fun _ => ⟨Instr.noConfusion, Instr.noConfusion⟩, _, rfl⟩

theorem witness_no_draw : (∀ x nn, Instr.ldImm 3 4 ≠ .rnd x nn) ∧ ∃ t, exec (.ldImm 3 4) State.reset = .next t :=
  ⟨fun _ _ => Instr.noConfusion, _, rfl⟩

/-- A completed instruction of each line of the table of R23. -/
theorem witness_pc : State.reset.Running ∧ (∃ t, exec (.jpV0 0xFFF) State.reset = .next t ∧ t.Running) ∧
    (∃ t, exec .ret { State.reset with sp := 16 } = .next t ∧ t.Running) ∧
    (∃ t, exec (.seReg 1 1) State.reset = .next t ∧ t.Running) ∧
    (∃ t, exec (.ldVxK 3) State.reset = .next t ∧ t.Running) ∧
    ∃ t, exec .cls State.reset = .next t ∧ t.Running :=
  ⟨rfl, ⟨_, rfl, rfl⟩, ⟨_, rfl, rfl⟩, ⟨_, rfl, rfl⟩, ⟨_, rfl, rfl⟩, _, rfl, rfl⟩

theorem witness_final : looping.Final := ⟨rfl, ⟨0x200, rfl, rfl⟩, rfl, rfl⟩

end Sys2Proof.Tests
end

section
/-!
PROOFS of the statements about fatal conditions and the key wait (spec/60_exceptions.md R182, R183, R194). First what
`CALL`, `RET` and a missed `LD Vx, K` answer in each case of the stack and of the keypad, then the statements.
-/

namespace Sys2Proof.Machine

/-! ### `CALL` and `RET` by stack depth -/

/-- `CALL` below depth 16 completes (R103). -/
theorem exec_call_room {s : State} (nnn : Imm12) (h : s.sp.val < 16) :
    exec (.call nnn) s = .next ({ s with
      pc := immAddr nnn
      stack := s.stack.set s.sp.val (s.pc + 2)
      sp := ⟨s.sp.val + 1, by omega⟩ } : State).tick := by
  have hp : s.advance.sp.val < 16 := h
  rw [exec_call_eq, State.push_room _ hp]
  rfl

/-- `CALL` at depth 16 takes the fatal condition (R182). -/
theorem exec_call_full {s : State} (nnn : Imm12) (h : s.sp.val = 16) :
    exec (.call nnn) s = .next (s.takeFault .stackOverflow) := by
  have hp : s.advance.sp.val = 16 := h
  rw [exec_call_eq, State.push_full _ hp]
  rfl

/-- `RET` above depth 0 completes (R101). -/
theorem exec_ret_some {s : State} (h : 0 < s.sp.val) :
    exec .ret s = .next ({ s with
      pc := s.stack[s.sp.val - 1]'(by omega)
      sp := ⟨s.sp.val - 1, by omega⟩ } : State).tick := by
  have hp : 0 < s.advance.sp.val := h
  rw [exec_ret_eq, State.popPc_some hp]
  rfl

/-- `RET` at depth 0 takes the fatal condition (R183). -/
theorem exec_ret_empty {s : State} (h : s.sp.val = 0) :
    exec .ret s = .next (s.takeFault .stackUnderflow) := by
  have hp : s.advance.sp.val = 0 := h
  rw [exec_ret_eq, State.popPc_empty hp, finish_error]

/-- Nested calls that fit on the stack all complete, each one deeper. -/
theorem callAll_room (targets : List Imm12) {s : State} (h : s.sp.val + targets.length ≤ 16) :
    ∃ t, callAll targets s = .next t ∧ t.status = s.status ∧ t.sp.val = s.sp.val + targets.length := by
  induction targets generalizing s with
  | nil => exact ⟨s, rfl, rfl, rfl⟩
  | cons nnn rest ih =>
    rw [List.length_cons] at h ⊢
    obtain ⟨u, hcall, hustatus, hudepth⟩ : ∃ u, exec (.call nnn) s = .next u ∧ u.status = s.status ∧
        u.sp.val = s.sp.val + 1 := ⟨_, exec_call_room nnn (by omega), rfl, rfl⟩
    obtain ⟨t, hrest, htstatus, htdepth⟩ := ih (s := u) (by omega)
    exact ⟨t, by simp only [callAll, hcall, hrest], htstatus.trans hustatus, by omega⟩

/-! ### The key wait with no key pressed -/

theorem lowestKey_none {keys : Vector Bool 16} (h : ∀ k : Fin 16, keys[k] = false) : lowestKey keys = none := by
  rcases lowestKey_cases keys with ⟨k, -, hk, -⟩ | ⟨hnone, -⟩
  · rw [h k] at hk
    contradiction
  · exact hnone

/-- A key-wait miss is the tick alone: `pc` is put back on the instruction (R162). -/
theorem exec_ldVxK_miss (x : Reg) {s : State} (h : ∀ k : Fin 16, s.keys[k] = false) :
    exec (.ldVxK x) s = .next s.tick := by
  rw [exec_ldVxK_eq, lowestKey_none h]
  rfl

theorem keptBut_tick (s : State) : KeptBut [.dt, .st] s s.tick := by
  intro p hp
  cases p with
  | dt | st => simp at hp
  | _ => simp [Part.Same]

/-! ### The statements -/

/-- Settles O19: the nested calls by induction over the targets (`callAll_room`), the further one by
`exec_call_full`. -/
theorem seventeenthNestedCallOverflows : Obligations.SeventeenthNestedCallOverflows := by
  refine ⟨fun nnn s hsp => ⟨_, exec_call_full nnn hsp, rfl, rfl, hsp⟩, ?_⟩
  intro targets nnn s hrun hempty hlen
  obtain ⟨t, hcalls, hstatus, hdepth⟩ := callAll_room targets (s := s) (by omega)
  have hfull : t.sp.val = 16 := by omega
  exact ⟨t, _, hcalls, hstatus.trans hrun, hfull, exec_call_full nnn hfull, rfl, rfl, hfull⟩

/-- Settles O20, by the two cases of the depth. -/
theorem returnOnAnEmptyStackUnderflows : Obligations.ReturnOnAnEmptyStackUnderflows := by
  intro s hrun
  by_cases h : s.sp.val = 0
  · exact ⟨_, exec_ret_empty h, iff_of_true rfl h, fun _ => ⟨h, fun held => exec_ret_empty h⟩⟩
  · refine ⟨_, exec_ret_some (Nat.pos_of_ne_zero h), iff_of_false ?_ h, fun h0 => absurd h0 h⟩
    have hrun : s.status = .running := hrun
    simp [hrun]

/-- Settles O45: the miss is the tick of the state the step begins in. -/
theorem keyWaitMissIsAnOrdinaryStep : Obligations.KeyWaitMissIsAnOrdinaryStep := by
  intro x s hrun hfetch hkeys
  have hstep : step s = .next s.tick := by
    rw [step_running_ok hrun hfetch, exec_ldVxK_miss x hkeys]
  exact ⟨s.tick, hstep, hrun, rfl, tickedFrom_tick s, keptBut_tick s⟩

end Sys2Proof.Machine
end

section
/-!
The size check of construction (spec/70_reset_and_hazards.md R211): one equation for each of its two outcomes.
-/

namespace Sys2Proof.Machine

theorem construct_of_romMax_lt (cfg : Config) {rom : List Byte} (h : romMax < rom.length) :
    construct cfg rom = .fault (.programTooLarge rom.length) :=
  if_pos h

theorem construct_of_le_romMax (cfg : Config) {rom : List Byte} (h : rom.length ≤ romMax) :
    construct cfg rom = .next { State.reset with mem := constructedMemory cfg rom, cfg := cfg } :=
  if_neg (Nat.not_lt.mpr h)

/-- Settles O3, by the two outcomes of the size check: the bound `romMax` is 3584. -/
theorem constructionFailsExactlyOnLargeImages : Obligations.ConstructionFailsExactlyOnLargeImages := by
  intro cfg rom
  constructor
  · intro hlarge
    exact construct_of_romMax_lt cfg hlarge
  · intro hfits
    exact ⟨_, construct_of_le_romMax cfg hfits⟩

end Sys2Proof.Machine
end

section
/-!
PROOFS, the words: the level-2 tables and the level-1 table of the decoder (spec/30_encoding.md R77) against the encoder
(R80) and the table of illegal words (R82), then the statements about encoding.
-/

namespace Sys2Proof.Machine

/-! ### A word is its fields -/

theorem wordA_fields (w : Word) : wordA (opOf w) (nnnOf w) = w := by
  have := w.isLt
  exact BitVec.eq_of_toNat_eq (by rw [wordA_toNat, opOf_toNat, nnnOf_toNat]; omega)

theorem wordXI_fields (w : Word) : wordXI (opOf w) (xOf w) (nnOf w) = w := by
  have := w.isLt
  exact BitVec.eq_of_toNat_eq (by rw [wordXI_toNat, opOf_toNat, xOf_val, nnOf_toNat]; omega)

theorem wordXYN_fields (w : Word) : wordXYN (opOf w) (xOf w) (yOf w) (nOf w) = w := by
  have := w.isLt
  exact BitVec.eq_of_toNat_eq (by rw [wordXYN_toNat, opOf_toNat, xOf_val, yOf_val, nOf_toNat]; omega)

/-- Format `A` from the number of its opcode field. -/
theorem wordA_of_op {w : Word} {op : Nibble} (hop : (opOf w).toNat = op.toNat) : wordA op (nnnOf w) = w := by
  rw [← BitVec.eq_of_toNat_eq hop, wordA_fields]

/-- Format `XI` from the number of its opcode field. -/
theorem wordXI_of_op {w : Word} {op : Nibble} (hop : (opOf w).toNat = op.toNat) :
    wordXI op (xOf w) (nnOf w) = w := by
  rw [← BitVec.eq_of_toNat_eq hop, wordXI_fields]

/-- Format `XS` from the numbers of its opcode and low byte. -/
theorem wordXS_of_op {w : Word} {op : Nibble} {nn : Byte} (hop : (opOf w).toNat = op.toNat)
    (hnn : (nnOf w).toNat = nn.toNat) : wordXI op (xOf w) nn = w := by
  rw [← BitVec.eq_of_toNat_eq hnn, wordXI_of_op hop]

/-- Format `XY` from the numbers of its opcode and low nibble. -/
theorem wordXY_of_op {w : Word} {op n : Nibble} (hop : (opOf w).toNat = op.toNat)
    (hn : (nOf w).toNat = n.toNat) : wordXYN op (xOf w) (yOf w) n = w := by
  rw [← BitVec.eq_of_toNat_eq hop, ← BitVec.eq_of_toNat_eq hn, wordXYN_fields]

/-! ### What the decoder's tables answer -/

/-- The decoder's answer on a word is right: an instruction of the machine whose word it is, and then the word is
legal; or the rejection of an illegal word. -/
def DecodedRight (hasAddImm : Bool) (w : Word) : Except DecodeError Instr → Prop
  | .ok i => encode i = w ∧ i.wf hasAddImm = true ∧ ¬IllegalWord hasAddImm w.toNat
  | .error e => e = .invalidOpcode w ∧ IllegalWord hasAddImm w.toNat

/-- Family 0 matches the whole word (R77). -/
theorem decodeT0_right (hasAddImm : Bool) {w : Word} (hop : (opOf w).toNat = 0x0) :
    DecodedRight hasAddImm w (decodeT0 w) := by
  have hfamily := opOf_toNat w ▸ hop
  have hlow := nnnOf_toNat w
  unfold decodeT0
  split
  · next hnnn =>
    have hw : w.toNat = 0x00E0 := by omega
    exact ⟨(BitVec.eq_of_toNat_eq hw).symm, rfl, by simp [IllegalWord, hw]⟩
  · next hnnn =>
    have hw : w.toNat = 0x00EE := by omega
    exact ⟨(BitVec.eq_of_toNat_eq hw).symm, rfl, by simp [IllegalWord, hw]⟩
  · next hcls hret =>
    rw [imp_false] at hcls hret
    exact ⟨rfl, .inl ⟨hfamily, by omega, by omega⟩⟩

/-- Family 8 is told apart by its low nibble. -/
theorem decodeT8_right (hasAddImm : Bool) {w : Word} (hop : (opOf w).toNat = 0x8) :
    DecodedRight hasAddImm w (decodeT8 w) := by
  have hfamily := opOf_toNat w ▸ hop
  have hlow := nOf_toNat w
  unfold decodeT8
  split
  case h_10 =>
    simp only [imp_false] at *
    exact ⟨rfl, by simp [IllegalWord, hfamily]; omega⟩
  all_goals
    next hn => exact ⟨wordXY_of_op hop hn, rfl, by simp [IllegalWord, hfamily, ← hlow, hn]⟩

/-- Family E is told apart by its low byte. -/
theorem decodeTE_right (hasAddImm : Bool) {w : Word} (hop : (opOf w).toNat = 0xE) :
    DecodedRight hasAddImm w (decodeTE w) := by
  have hfamily := opOf_toNat w ▸ hop
  have hlow := nnOf_toNat w
  unfold decodeTE
  split
  case h_3 =>
    simp only [imp_false] at *
    exact ⟨rfl, by simp [IllegalWord, hfamily]; omega⟩
  all_goals
    next hnn => exact ⟨wordXS_of_op hop hnn, rfl, by simp [IllegalWord, hfamily, ← hlow, hnn]⟩

/-- Family F is told apart by its low byte. -/
theorem decodeTF_right (hasAddImm : Bool) {w : Word} (hop : (opOf w).toNat = 0xF) :
    DecodedRight hasAddImm w (decodeTF w) := by
  have hfamily := opOf_toNat w ▸ hop
  have hlow := nnOf_toNat w
  unfold decodeTF
  split
  case h_10 =>
    simp only [imp_false] at *
    exact ⟨rfl, by simp [IllegalWord, hfamily]; omega⟩
  all_goals
    next hnn => exact ⟨wordXS_of_op hop hnn, rfl, by simp [IllegalWord, hfamily, ← hlow, hnn]⟩

/-- A word of a family without illegal words (R82). -/
theorem not_illegalWord_of_op (hasAddImm : Bool) {w : Word} {op : Nat} (hop : (opOf w).toNat = op)
    (hlegal : op ∉ [0x0, 0x5, 0x7, 0x8, 0x9, 0xE, 0xF]) : ¬IllegalWord hasAddImm w.toNat := by
  have hfamily := opOf_toNat w ▸ hop
  simp only [List.mem_cons, List.not_mem_nil, or_false, not_or] at hlegal
  simp [IllegalWord, hfamily, hlegal]

/-- Families 5 and 9 have the low nibble 0 alone. -/
theorem lowNibbleZero_right (hasAddImm : Bool) {w : Word} {op : Nibble} {i : Instr} (hop : (opOf w).toNat = op.toNat)
    (hfamily : op = 0x5 ∨ op = 0x9) (hi : encode i = wordXYN op (xOf w) (yOf w) 0) (hwf : i.wf hasAddImm = true) :
    DecodedRight hasAddImm w (if nOf w = 0 then .ok i else .error (.invalidOpcode w)) := by
  have hdiv := opOf_toNat w ▸ hop
  have hlow := nOf_toNat w
  split
  · next hn =>
    have hn : (nOf w).toNat = 0 := congrArg BitVec.toNat hn
    refine ⟨hi.trans (wordXY_of_op hop hn), hwf, ?_⟩
    rcases hfamily with rfl | rfl <;> simp [IllegalWord, hdiv, ← hlow, hn]
  · next hn =>
    have hn : (nOf w).toNat ≠ 0 := fun e => hn (BitVec.eq_of_toNat_eq e)
    refine ⟨rfl, ?_⟩
    rcases hfamily with rfl | rfl <;> simp [IllegalWord, hdiv] <;> omega

/-- Family 7 exists where `ADMIT_ADD_IMM` is true (R121). -/
theorem addImm_right (hasAddImm : Bool) {w : Word} (hop : (opOf w).toNat = 0x7) :
    DecodedRight hasAddImm w
      (if hasAddImm then .ok (.addImm (xOf w) (nnOf w)) else .error (.invalidOpcode w)) := by
  have hfamily := opOf_toNat w ▸ hop
  cases hasAddImm with
  | true => exact ⟨wordXI_of_op hop, rfl, by simp [IllegalWord, hfamily]⟩
  | false => exact ⟨rfl, by simp [IllegalWord, hfamily]⟩

/-- The decoder is right on every word: level 1 chooses the family, whose table is right. -/
theorem decode_right (hasAddImm : Bool) (w : Word) : DecodedRight hasAddImm w (decode hasAddImm w) := by
  have hlt := (opOf w).isLt
  unfold decode
  split
  case h_1 hop => exact decodeT0_right hasAddImm hop
  case h_6 hop => exact lowNibbleZero_right hasAddImm (op := 0x5) hop (.inl rfl) rfl rfl
  case h_8 hop => exact addImm_right hasAddImm hop
  case h_9 hop => exact decodeT8_right hasAddImm hop
  case h_10 hop => exact lowNibbleZero_right hasAddImm (op := 0x9) hop (.inr rfl) rfl rfl
  case h_14 hop => exact ⟨wordXY_of_op hop rfl, rfl, not_illegalWord_of_op _ hop (by decide)⟩
  case h_15 hop => exact decodeTE_right hasAddImm hop
  case h_16 =>
    simp only [imp_false] at *
    exact decodeTF_right hasAddImm (by omega)
  case h_2 hop | h_3 hop | h_11 hop | h_12 hop =>
    exact ⟨wordA_of_op hop, rfl, not_illegalWord_of_op _ hop (by decide)⟩
  case h_4 hop | h_5 hop | h_7 hop | h_13 hop =>
    exact ⟨wordXI_of_op hop, rfl, not_illegalWord_of_op _ hop (by decide)⟩

theorem decode_of_illegalWord {hasAddImm : Bool} {w : Word} (h : IllegalWord hasAddImm w.toNat) :
    decode hasAddImm w = .error (.invalidOpcode w) := by
  have hright := decode_right hasAddImm w
  cases hd : decode hasAddImm w with
  | ok i =>
    rw [hd] at hright
    exact absurd h hright.2.2
  | error e =>
    rw [hd] at hright
    rw [hright.1]

theorem decode_of_not_illegalWord {hasAddImm : Bool} {w : Word} (h : ¬IllegalWord hasAddImm w.toNat) :
    ∃ i, decode hasAddImm w = .ok i := by
  have hright := decode_right hasAddImm w
  cases hd : decode hasAddImm w with
  | ok i => exact ⟨i, rfl⟩
  | error e =>
    rw [hd] at hright
    exact absurd hright.2 h

/-! ### Decoding what the encoder wrote -/

/-- Decoding the encoding, family by family: the fields of the built word read back. -/
theorem decode_encode {hasAddImm : Bool} {i : Instr} (hwf : i.wf hasAddImm = true) :
    decode hasAddImm (encode i) = .ok i := by
  cases i with
  | cls | ret => rfl
  | addImm x nn =>
    have hparam : hasAddImm = true := hwf
    simp [encode, decode, hparam]
  | ldReg | orReg | andReg | xorReg | addReg | subReg | shr | subnReg | shl => simp [encode, decode, decodeT8]
  | skp | sknp => simp [encode, decode, decodeTE]
  | ldVxDt | ldVxK | ldDtVx | ldStVx | addI | ldF | ldB | storeRegs | loadRegs =>
    simp [encode, decode, decodeTF]
  | _ => simp [encode, decode]

theorem decodeBytes_encodeBytes {hasAddImm : Bool} {i : Instr} (hwf : i.wf hasAddImm = true) (rest : List Byte) :
    decodeBytes hasAddImm (encodeBytes i ++ rest) = .ok (i, rest) := by
  simp [encodeBytes, decodeBytes, wordOfBytes_split, decode_encode hwf]

/-! ### The statements -/

/-- Settles O11: the word by `decode_encode`, the bytes because they put together are the word. -/
theorem decodingInvertsEncoding : Obligations.DecodingInvertsEncoding :=
  fun _ _ hwf => ⟨decode_encode hwf, decodeBytes_encodeBytes hwf⟩

/-- Settles O12: what the decoder accepts it decodes right (`decode_right`). -/
theorem encodingInvertsDecoding : Obligations.EncodingInvertsDecoding := by
  intro hasAddImm w i hdecode
  have hright := decode_right hasAddImm w
  rw [hdecode] at hright
  exact ⟨hright.1, hright.2.1⟩

/-- Settles O13: both halves are `decode_right`. -/
theorem illegalWordsAreExactlyTheTable : Obligations.IllegalWordsAreExactlyTheTable :=
  fun _ _ => ⟨decode_of_illegalWord, decode_of_not_illegalWord⟩

/-- Settles O14, by evaluating the decoder on the twenty words. -/
theorem sampleWordsDecode : Obligations.SampleWordsDecode := by
  unfold Obligations.SampleWordsDecode
  decide

end Sys2Proof.Machine
end

section
/-!
PROOFS, the frame layer: when two states agree on a part as a value, the part each operation of Machine/Ops.lean
writes, and what the tick adds. The statements' frames (`KeptBut`, `Completes`) are read off these.
-/

namespace Sys2Proof.Machine

/-! ### Parts unchanged as values -/

/-- A part is the same value in two states: memory as a list, where `Part.Same` compares it byte by byte. -/
def Part.Unchanged (s t : State) : Part → Prop
  | .v => t.v = s.v
  | .idx => t.idx = s.idx
  | .pc => t.pc = s.pc
  | .sp => t.sp = s.sp
  | .stack => t.stack = s.stack
  | .dt => t.dt = s.dt
  | .st => t.st = s.st
  | .keys => t.keys = s.keys
  | .fb => t.fb = s.fb
  | .mem => t.mem = s.mem
  | .status => t.status = s.status
  | .cfg => t.cfg = s.cfg
  | .draws => t.draws = s.draws

/-- Every part but those listed is unchanged. -/
def UnchangedBut (changed : List Part) (s t : State) : Prop := ∀ p, p ∉ changed → Part.Unchanged s t p

theorem Part.Unchanged.same {s t : State} {p : Part} (h : Part.Unchanged s t p) : Part.Same s t p := by
  cases p with
  | v => intro r; rw [show t.v = s.v from h]
  | fb => intro x y; rw [show t.fb = s.fb from h]
  | mem => intro a; rw [show t.mem = s.mem from h]
  | _ => exact h

theorem Part.Unchanged.trans {s t u : State} {p : Part} (h : Part.Unchanged s t p) (h' : Part.Unchanged t u p) :
    Part.Unchanged s u p := by
  cases p <;> exact Eq.trans h' h

theorem UnchangedBut.keptBut {changed : List Part} {s t : State} (h : UnchangedBut changed s t) :
    KeptBut changed s t :=
  fun p hp => (h p hp).same

theorem UnchangedBut.mono {changed more : List Part} {s t : State} (h : UnchangedBut changed s t)
    (hsub : changed ⊆ more) : UnchangedBut more s t :=
  fun p hp => h p fun hmem => hp (hsub hmem)

theorem UnchangedBut.trans {changed changed' : List Part} {s t u : State} (h : UnchangedBut changed s t)
    (h' : UnchangedBut changed' t u) : UnchangedBut (changed ++ changed') s u := by
  intro p hp
  rw [List.mem_append, not_or] at hp
  exact (h p hp.1).trans (h' p hp.2)

/-! ### What each operation writes -/

theorem unchangedBut_setReg (s : State) (x : Reg) (b : Byte) : UnchangedBut [.v] s (s.setReg x b) := by
  intro p hp
  cases p with
  | v => simp at hp
  | _ => rfl

theorem unchangedBut_setIdx (s : State) (w : Word) : UnchangedBut [.idx] s (s.setIdx w) := by
  intro p hp
  cases p with
  | idx => simp at hp
  | _ => rfl

theorem unchangedBut_setPc (s : State) (w : Word) : UnchangedBut [.pc] s (s.setPc w) := by
  intro p hp
  cases p with
  | pc => simp at hp
  | _ => rfl

theorem unchangedBut_setDt (s : State) (b : Byte) : UnchangedBut [.dt] s (s.setDt b) := by
  intro p hp
  cases p with
  | dt => simp at hp
  | _ => rfl

theorem unchangedBut_setSt (s : State) (b : Byte) : UnchangedBut [.st] s (s.setSt b) := by
  intro p hp
  cases p with
  | st => simp at hp
  | _ => rfl

theorem unchangedBut_setFb (s : State) (f : Framebuffer) : UnchangedBut [.fb] s (s.setFb f) := by
  intro p hp
  cases p with
  | fb => simp at hp
  | _ => rfl

theorem unchangedBut_setMem (s : State) (m : Memory) : UnchangedBut [.mem] s (s.setMem m) := by
  intro p hp
  cases p with
  | mem => simp at hp
  | _ => rfl

theorem unchangedBut_draw (s : State) : UnchangedBut [.draws] s s.draw.2 := by
  intro p hp
  cases p with
  | draws => simp at hp
  | _ => rfl

theorem unchangedBut_takeFault (s : State) (c : Cause) : UnchangedBut [.status] s (s.takeFault c) := by
  intro p hp
  cases p with
  | status => simp at hp
  | _ => rfl

theorem unchangedBut_tick (s : State) : UnchangedBut [.dt, .st] s s.tick := by
  intro p hp
  cases p with
  | dt | st => simp at hp
  | _ => rfl

/-- A return writes `pc` and the depth. -/
theorem unchangedBut_return (s : State) (w : Word) (d : Fin 17) :
    UnchangedBut [.pc, .sp] s { s with pc := w, sp := d } := by
  intro p hp
  cases p with
  | pc | sp => simp at hp
  | _ => rfl

/-- A call writes `pc`, the depth and the stack array. -/
theorem unchangedBut_call (s : State) (w : Word) (d : Fin 17) (e : Vector Word 16) :
    UnchangedBut [.pc, .sp, .stack] s { s with pc := w, stack := e, sp := d } := by
  intro p hp
  cases p with
  | pc | sp | stack => simp at hp
  | _ => rfl

/-- A bulk load writes the registers. -/
theorem unchangedBut_registers (s : State) (w : Vector Byte 16) : UnchangedBut [.v] s { s with v := w } := by
  intro p hp
  cases p with
  | v => simp at hp
  | _ => rfl

theorem unchangedBut_skipIf (s : State) (c : Bool) : UnchangedBut [.pc] s (s.skipIf c) := by
  cases c with
  | true => exact unchangedBut_setPc s _
  | false => exact (unchangedBut_setPc s s.pc : UnchangedBut [.pc] s s)

theorem unchangedBut_flagThenResult (s : State) (x : Reg) (f : Bool) (r : Byte) :
    UnchangedBut [.v] s (s.flagThenResult x f r) :=
  ((unchangedBut_setReg s vf _).trans (unchangedBut_setReg _ x r)).mono (by simp)

theorem unchangedBut_putCanvas (s : State) (d : Canvas) : UnchangedBut [.v, .fb] s (s.putCanvas d) :=
  ((unchangedBut_setFb s d.fb).trans (unchangedBut_setReg _ vf _)).mono (by simp)

theorem unchangedBut_drawMaskInto (s : State) (x : Reg) (nn r : Byte) :
    UnchangedBut [.v, .draws] s (s.draw.2.maskInto x nn r) :=
  ((unchangedBut_draw s).trans (unchangedBut_setReg _ x (r &&& nn))).mono (by simp)

/-! ### The frame of a completed instruction -/

/-- The tick counts from the old timers where the handler leaves them alone. -/
theorem UnchangedBut.tickedFrom {changed : List Part} {s u : State} (h : UnchangedBut changed s u)
    (hdt : .dt ∉ changed) (hst : .st ∉ changed) : TickedFrom s.dt s.st u.tick := by
  have hdt : u.dt = s.dt := h .dt hdt
  have hst : u.st = s.st := h .st hst
  rw [← hdt, ← hst]
  exact tickedFrom_tick u

theorem UnchangedBut.keptBut_tick {changed : List Part} {s u : State} (h : UnchangedBut changed s u) :
    KeptBut (changed ++ [.dt, .st]) s u.tick :=
  (h.trans (unchangedBut_tick u)).keptBut

/-- A handler that leaves `pc` and the timers to the advance and the tick completes (R75, R78). -/
theorem UnchangedBut.completes {changed : List Part} {s u : State} (h : UnchangedBut changed s.advance u)
    (hframe : ∀ p ∈ [Part.pc, .dt, .st], p ∉ changed) : Completes changed s u.tick := by
  have hpc : u.pc = s.pc + 2 := h .pc (hframe .pc (by simp))
  refine ⟨hpc, h.tickedFrom (hframe .dt (by simp)) (hframe .st (by simp)), ?_⟩
  have hsub : [.pc] ++ changed ++ [.dt, .st] ⊆ .pc :: .dt :: .st :: changed := by grind
  exact ((((unchangedBut_setPc s _).trans h).trans (unchangedBut_tick u)).mono hsub).keptBut

/-- A handler that moves `pc` alone: the tick and nothing else besides. -/
theorem UnchangedBut.jumps {s u : State} (h : UnchangedBut [.pc] s u) :
    TickedFrom s.dt s.st u.tick ∧ KeptBut [.pc, .dt, .st] s u.tick :=
  ⟨h.tickedFrom (by simp) (by simp), h.keptBut_tick⟩

/-! ### Registers written -/

/-- One register written and the rest left, on the advanced state. -/
theorem setReg_completes (s : State) (x : Reg) (b : Byte) :
    (s.advance.setReg x b).tick.v[x] = b ∧ RegsKeptBut [x] s (s.advance.setReg x b).tick ∧
      Completes [.v] s (s.advance.setReg x b).tick := by
  refine ⟨(getElem_set_reg s.v x x b).trans (if_pos rfl), ?_, (unchangedBut_setReg _ x b).completes (by decide)⟩
  intro r hr
  rw [List.mem_singleton] at hr
  exact (getElem_set_reg s.v x r b).trans (if_neg hr)

/-- The flag and the result written in that order, on the advanced state: with `X = 15` the result survives. -/
theorem flagThenResult_completes (s : State) (x : Reg) (f : Bool) (b : Byte) :
    (s.advance.flagThenResult x f b).tick.v[x] = b ∧
      (x ≠ 15 → (s.advance.flagThenResult x f b).tick.v[(15 : Reg)] = flagByte f) ∧
      RegsKeptBut [x, 15] s (s.advance.flagThenResult x f b).tick ∧
      Completes [.v] s (s.advance.flagThenResult x f b).tick := by
  have hread (r : Reg) : (s.advance.flagThenResult x f b).tick.v[r] =
      if r = x then b else if r = 15 then flagByte f else s.v[r] :=
    (getElem_set_reg _ x r b).trans (by rw [State.setFlag_v, getElem_set_reg]; rfl)
  refine ⟨(hread x).trans (if_pos rfl), fun hx => ?_, fun r hr => ?_,
    (unchangedBut_flagThenResult _ x f b).completes (by decide)⟩
  · rw [hread, if_neg (Ne.symm hx), if_pos rfl]
  · simp only [List.mem_cons, List.not_mem_nil, or_false, not_or] at hr
    rw [hread, if_neg hr.1, if_neg hr.2]

end Sys2Proof.Machine
end

section
/-!
PROOFS, what an instruction can do: it takes a fatal condition exactly where `HandlerRaises` says so, and otherwise
completes and writes the parts of `Instr.writes`. The whole-machine statements follow from these two facts.
-/

namespace Sys2Proof

/-- The parts a completing instruction writes besides its advance and its tick; `pc` where it moves `pc` itself. -/
def Instr.writes : Instr → List Machine.Part
  | .cls => [.fb]
  | .ret => [.pc, .sp]
  | .call _ => [.pc, .sp, .stack]
  | .jp _ | .jpV0 _ | .seImm _ _ | .sneImm _ _ | .seReg _ _ | .sneReg _ _ | .skp _ | .sknp _ => [.pc]
  | .ldVxK _ => [.v, .pc]
  | .ldI _ | .addI _ | .ldF _ => [.idx]
  | .rnd _ _ => [.v, .draws]
  | .drw _ _ _ => [.v, .fb]
  | .ldDtVx _ => [.dt]
  | .ldStVx _ => [.st]
  | .ldB _ | .storeRegs _ => [.mem]
  | _ => [.v]

end Sys2Proof

namespace Sys2Proof.Machine

/-! ### The instructions that can raise, in range and out of range -/

theorem not_dataInRange {s : State} {n : Nat} (h : ¬DataInRange s n) :
    s.cfg.addrPolicy = .fault ∧ 0 < n ∧ 4096 < s.idx.toNat + n := by
  simp only [DataInRange, not_or] at h
  obtain ⟨hn, hpolicy, hpast⟩ := h
  refine ⟨?_, Nat.pos_of_ne_zero hn, Nat.lt_of_not_le hpast⟩
  cases hp : s.cfg.addrPolicy with
  | fault => rfl
  | wrap => exact absurd hp hpolicy

theorem State.loadBytes_notInRange {s : State} {n : Nat} (h : ¬DataInRange s n) :
    s.loadBytes n = .error (.addressOutOfRange (max 4096 s.idx.toNat)) := by
  obtain ⟨hpolicy, hn, hpast⟩ := not_dataInRange h
  exact State.loadBytes_outOfRange hpolicy hn hpast

theorem State.storeBytes_notInRange {s : State} {bs : List Byte} (h : ¬DataInRange s bs.length) :
    s.storeBytes bs = .error (.addressOutOfRange (max 4096 s.idx.toNat)) := by
  obtain ⟨hpolicy, hn, hpast⟩ := not_dataInRange h
  exact State.storeBytes_outOfRange hpolicy hn hpast

/-- The bytes of memory at `I` on (R146). -/
def bytesAtIndex (s : State) (n : Nat) : List Byte := (List.range n).map fun k => Mem.read s.mem (dataAddr s k)

@[simp] theorem bytesAtIndex_length (s : State) (n : Nat) : (bytesAtIndex s n).length = n := by
  simp [bytesAtIndex]

/-- A bulk load leaves in `V[r]` the byte at offset `r`, up to the last register it names. -/
theorem loadRegsFrom_bytesAtIndex (s : State) (x r : Reg) :
    (loadRegsFrom s.v 0 (bytesAtIndex s (x.val + 1)))[r] =
      if r ≤ x then Mem.read s.mem (dataAddr s r.val) else s.v[r] := by
  have hx := x.isLt
  have hlen := bytesAtIndex_length s (x.val + 1)
  have hreach : (0 ≤ r.val ∧ r.val < 0 + (bytesAtIndex s (x.val + 1)).length) ↔ r ≤ x := by
    rw [hlen, Fin.le_def]
    omega
  rw [loadRegsFrom_getElem _ _ _ (by omega)]
  by_cases hr : r ≤ x
  · rw [dif_pos (hreach.mpr hr), if_pos hr]
    simp [bytesAtIndex]
  · rw [dif_neg (mt hreach.mp hr), if_neg hr]

/-- Memory with bytes stored at `I` on. -/
def storedMem (s : State) (bs : List Byte) : Memory :=
  Mem.writeAll s.mem (((List.range bs.length).map (dataAddr s)).zip bs)

theorem exec_drw_inRange {x y : Reg} {n : Fin 16} {s : State} (h : DataInRange s n.val) :
    exec (.drw x y n) s = .next (s.advance.putCanvas
      (drawSprite s.cfg.drawEdge (s.reg x) (s.reg y) (bytesAtIndex s n.val) s.fb)).tick := by
  rw [exec_drw_eq, State.loadBytes_inRange ((dataInRange_advance s n.val).mpr h)]
  rfl

theorem exec_drw_notInRange {x y : Reg} {n : Fin 16} {s : State} (h : ¬DataInRange s n.val) :
    exec (.drw x y n) s = .next (s.takeFault (.addressOutOfRange (max 4096 s.idx.toNat))) := by
  rw [exec_drw_eq, State.loadBytes_notInRange (mt (dataInRange_advance s n.val).mp h)]
  rfl

theorem finish_storeBytes_inRange {s : State} {bs : List Byte} (h : DataInRange s bs.length) :
    finish s (s.advance.storeBytes bs) = .next (s.advance.setMem (storedMem s bs)).tick := by
  rw [State.storeBytes_inRange ((dataInRange_advance s bs.length).mpr h)]
  rfl

theorem finish_storeBytes_notInRange {s : State} {bs : List Byte} (h : ¬DataInRange s bs.length) :
    finish s (s.advance.storeBytes bs) = .next (s.takeFault (.addressOutOfRange (max 4096 s.idx.toNat))) := by
  rw [State.storeBytes_notInRange (mt (dataInRange_advance s bs.length).mp h)]
  rfl

theorem exec_ldB_inRange {x : Reg} {s : State} (h : DataInRange s 3) :
    exec (.ldB x) s = .next (s.advance.setMem (storedMem s (bcdDigits (s.reg x)))).tick :=
  (exec_ldB_eq x s).trans (finish_storeBytes_inRange h)

theorem exec_ldB_notInRange {x : Reg} {s : State} (h : ¬DataInRange s 3) :
    exec (.ldB x) s = .next (s.takeFault (.addressOutOfRange (max 4096 s.idx.toNat))) :=
  (exec_ldB_eq x s).trans (finish_storeBytes_notInRange h)

theorem exec_storeRegs_inRange {x : Reg} {s : State} (h : DataInRange s (x.val + 1)) :
    exec (.storeRegs x) s = .next (s.advance.setMem (storedMem s (s.regsTo x))).tick :=
  (exec_storeRegs_eq x s).trans (finish_storeBytes_inRange (by rwa [State.regsTo_length]))

theorem exec_storeRegs_notInRange {x : Reg} {s : State} (h : ¬DataInRange s (x.val + 1)) :
    exec (.storeRegs x) s = .next (s.takeFault (.addressOutOfRange (max 4096 s.idx.toNat))) :=
  (exec_storeRegs_eq x s).trans (finish_storeBytes_notInRange (by rwa [State.regsTo_length]))

theorem exec_loadRegs_inRange {x : Reg} {s : State} (h : DataInRange s (x.val + 1)) :
    exec (.loadRegs x) s =
      .next ({ s.advance with v := loadRegsFrom s.v 0 (bytesAtIndex s (x.val + 1)) } : State).tick := by
  rw [exec_loadRegs_eq, State.loadBytes_inRange ((dataInRange_advance s _).mpr h)]
  rfl

theorem exec_loadRegs_notInRange {x : Reg} {s : State} (h : ¬DataInRange s (x.val + 1)) :
    exec (.loadRegs x) s = .next (s.takeFault (.addressOutOfRange (max 4096 s.idx.toNat))) := by
  rw [exec_loadRegs_eq, State.loadBytes_notInRange (mt (dataInRange_advance s _).mp h)]
  rfl

theorem exec_skp_legal {x : Reg} {s : State} (h : (s.v[x]).toNat < 16) :
    exec (.skp x) s = .next (s.advance.skipIf s.keys[(s.v[x]).toNat]).tick := by
  rw [exec_skp_eq, State.reg_eq, keyOf_legal h]
  rfl

theorem exec_skp_illegal {x : Reg} {s : State} (h : 15 < (s.v[x]).toNat) :
    exec (.skp x) s = .next (s.takeFault (.keyIndexOutOfRange s.v[x])) := by
  rw [exec_skp_eq, State.reg_eq, keyOf_illegal h]
  rfl

theorem exec_sknp_legal {x : Reg} {s : State} (h : (s.v[x]).toNat < 16) :
    exec (.sknp x) s = .next (s.advance.skipIf (!s.keys[(s.v[x]).toNat])).tick := by
  rw [exec_sknp_eq, State.reg_eq, keyOf_legal h]
  rfl

theorem exec_sknp_illegal {x : Reg} {s : State} (h : 15 < (s.v[x]).toNat) :
    exec (.sknp x) s = .next (s.takeFault (.keyIndexOutOfRange s.v[x])) := by
  rw [exec_sknp_eq, State.reg_eq, keyOf_illegal h]
  rfl

theorem exec_ldVxK_hit (x : Reg) {s : State} {k : Fin 16} (hk : s.keys[k] = true)
    (hbelow : ∀ j : Fin 16, j < k → s.keys[j] = false) :
    exec (.ldVxK x) s = .next (s.advance.setReg x (BitVec.ofNat 8 k.val)).tick := by
  rcases lowestKey_cases s.keys with ⟨k', hlow, hk', hbelow'⟩ | ⟨-, hnone⟩
  · have hkk : k' = k := by
      rcases lt_trichotomy k' k with h | h | h
      · simp [hbelow k' h] at hk'
      · exact h
      · simp [hbelow' k h] at hk
    rw [exec_ldVxK_eq, hlow, hkk]
  · simp [hnone k] at hk

/-- The key-wait either takes the lowest pressed key or is the tick alone. -/
theorem exec_ldVxK_cases (x : Reg) (s : State) :
    (∃ k : Fin 16, s.keys[k] = true ∧
        exec (.ldVxK x) s = .next (s.advance.setReg x (BitVec.ofNat 8 k.val)).tick) ∨
      ((∀ k : Fin 16, s.keys[k] = false) ∧ exec (.ldVxK x) s = .next s.tick) := by
  rcases lowestKey_cases s.keys with ⟨k, -, hk, hbelow⟩ | ⟨-, hnone⟩
  · exact .inl ⟨k, hk, exec_ldVxK_hit x hk hbelow⟩
  · exact .inr ⟨hnone, exec_ldVxK_miss x hnone⟩

/-! ### The two outcomes of an instruction -/

/-- An instruction answers one next state. -/
theorem exec_next_unique {i : Instr} {s t u : State} (h : exec i s = .next t) (h' : exec i s = .next u) : t = u :=
  Host.Outcome.next.inj (h.symm.trans h')

/-- A stack that is not full has room. -/
theorem sp_lt_of_not_full {s : State} {nnn : Imm12} (h : ¬HandlerRaises s (.call nnn)) : s.sp.val < 16 :=
  Nat.lt_of_le_of_ne (Nat.le_of_lt_succ s.sp.isLt) h

/-- A register that is not above 15 names a key. -/
theorem key_lt_of_not_above {s : State} {x : Reg} (h : ¬15 < (s.v[x]).toNat) : (s.v[x]).toNat < 16 :=
  Nat.lt_succ_of_le (Nat.le_of_not_lt h)

/-- Without its own fatal condition an instruction completes, and its handler writes nothing outside its list. -/
theorem exec_completes {i : Instr} {s : State} (h : ¬HandlerRaises s i) :
    ∃ u, exec i s = .next u.tick ∧ UnchangedBut i.writes s.advance u := by
  cases i with
  | cls => exact ⟨_, exec_cls_eq s, unchangedBut_setFb _ _⟩
  | ret => exact ⟨_, exec_ret_some (Nat.pos_of_ne_zero h), unchangedBut_return s.advance _ _⟩
  | call nnn => exact ⟨_, exec_call_room nnn (sp_lt_of_not_full h), unchangedBut_call s.advance _ _ _⟩
  | jp | jpV0 => exact ⟨_, rfl, unchangedBut_setPc _ _⟩
  | seImm | sneImm | seReg | sneReg => exact ⟨_, rfl, unchangedBut_skipIf _ _⟩
  | skp x => exact ⟨_, exec_skp_legal (key_lt_of_not_above h), unchangedBut_skipIf _ _⟩
  | sknp x => exact ⟨_, exec_sknp_legal (key_lt_of_not_above h), unchangedBut_skipIf _ _⟩
  | ldImm | addImm | ldReg | orReg | andReg | xorReg | ldVxDt => exact ⟨_, rfl, unchangedBut_setReg _ _ _⟩
  | addReg | subReg | shr | subnReg | shl => exact ⟨_, rfl, unchangedBut_flagThenResult _ _ _ _⟩
  | ldI | addI | ldF => exact ⟨_, rfl, unchangedBut_setIdx _ _⟩
  | rnd x nn => exact ⟨_, exec_rnd_eq x nn s, unchangedBut_drawMaskInto _ _ _ _⟩
  | ldVxK x =>
    rcases exec_ldVxK_cases x s with ⟨k, -, hexec⟩ | ⟨-, hexec⟩
    · exact ⟨_, hexec, (unchangedBut_setReg _ _ _).mono (by simp [Instr.writes])⟩
    · exact ⟨_, hexec, (unchangedBut_setPc s.advance s.pc : UnchangedBut [.pc] s.advance s).mono
        (by simp [Instr.writes])⟩
  | ldDtVx x => exact ⟨_, exec_ldDtVx_eq x s, unchangedBut_setDt _ _⟩
  | ldStVx x => exact ⟨_, exec_ldStVx_eq x s, unchangedBut_setSt _ _⟩
  | drw x y n => exact ⟨_, exec_drw_inRange (Classical.not_not.mp h), unchangedBut_putCanvas _ _⟩
  | ldB x => exact ⟨_, exec_ldB_inRange (Classical.not_not.mp h), unchangedBut_setMem _ _⟩
  | storeRegs x => exact ⟨_, exec_storeRegs_inRange (Classical.not_not.mp h), unchangedBut_setMem _ _⟩
  | loadRegs x => exact ⟨_, exec_loadRegs_inRange (Classical.not_not.mp h), unchangedBut_registers _ _⟩

/-- With its own fatal condition an instruction takes it. -/
theorem exec_raises {i : Instr} {s : State} (h : HandlerRaises s i) :
    ∃ c, exec i s = .next (s.takeFault c) := by
  cases i with
  | ret => exact ⟨_, exec_ret_empty h⟩
  | call nnn => exact ⟨_, exec_call_full nnn h⟩
  | skp x => exact ⟨_, exec_skp_illegal h⟩
  | sknp x => exact ⟨_, exec_sknp_illegal h⟩
  | drw x y n => exact ⟨_, exec_drw_notInRange h⟩
  | ldB x => exact ⟨_, exec_ldB_notInRange h⟩
  | storeRegs x => exact ⟨_, exec_storeRegs_notInRange h⟩
  | loadRegs x => exact ⟨_, exec_loadRegs_notInRange h⟩
  | _ => exact h.elim

/-- Everything an instruction that answers a next state can have done. -/
theorem exec_next_cases {i : Instr} {s t : State} (h : exec i s = .next t) :
    (HandlerRaises s i ∧ ∃ c, t = s.takeFault c) ∨
      (¬HandlerRaises s i ∧ ∃ u, t = u.tick ∧ UnchangedBut i.writes s.advance u) := by
  by_cases hraises : HandlerRaises s i
  · obtain ⟨c, hc⟩ := exec_raises hraises
    exact .inl ⟨hraises, c, exec_next_unique h hc⟩
  · obtain ⟨u, hu, hframe⟩ := exec_completes hraises
    exact .inr ⟨hraises, u, exec_next_unique h hu, hframe⟩

theorem not_running_takeFault (s : State) (c : Cause) : ¬(s.takeFault c).Running := Status.noConfusion

theorem status_notMem_writes (i : Instr) : .status ∉ i.writes := by
  cases i <;> simp [Instr.writes]

theorem cfg_notMem_writes (i : Instr) : .cfg ∉ i.writes := by
  cases i <;> simp [Instr.writes]

theorem keys_notMem_writes (i : Instr) : .keys ∉ i.writes := by
  cases i <;> simp [Instr.writes]

/-- From a running state, an instruction ends faulted exactly where its own condition holds. -/
theorem exec_running_iff {i : Instr} {s t : State} (hrun : s.Running) (h : exec i s = .next t) :
    t.Running ↔ ¬HandlerRaises s i := by
  rcases exec_next_cases h with ⟨hraises, c, rfl⟩ | ⟨hnot, u, rfl, hframe⟩
  · exact iff_of_false (not_running_takeFault s c) (not_not_intro hraises)
  · have hstatus : u.status = s.status := hframe .status (status_notMem_writes i)
    exact iff_of_true (hstatus.trans hrun) hnot

/-- A completed instruction, with the frame of its handler. -/
theorem exec_completed {i : Instr} {s t : State} (hrun : t.Running) (h : exec i s = .next t) :
    ∃ u, t = u.tick ∧ UnchangedBut i.writes s.advance u := by
  rcases exec_next_cases h with ⟨-, c, rfl⟩ | ⟨-, hu⟩
  · exact absurd hrun (not_running_takeFault s c)
  · exact hu

/-- A part outside the list of an instruction, and neither `pc`, the timers nor the status, is left as it was,
whether the instruction completes or raises. -/
theorem exec_unchanged {i : Instr} {s t : State} {p : Part} (h : exec i s = .next t) (hp : p ∉ i.writes)
    (hframe : p ∉ [Part.pc, .dt, .st, .status]) : Part.Unchanged s t p := by
  simp only [List.mem_cons, List.not_mem_nil, or_false, not_or] at hframe
  obtain ⟨hpc, hdt, hst, hstatus⟩ := hframe
  rcases exec_next_cases h with ⟨-, c, rfl⟩ | ⟨-, u, rfl, hwrites⟩
  · exact unchangedBut_takeFault s c p (by simpa using hstatus)
  · have hadvance : Part.Unchanged s s.advance p := unchangedBut_setPc s _ p (by simpa using hpc)
    have htick : Part.Unchanged u u.tick p := unchangedBut_tick u p (by simp [hdt, hst])
    exact (hadvance.trans (hwrites p hp)).trans htick

end Sys2Proof.Machine
end

section
/-!
PROOFS, the step and the whole machine: what a step keeps, when it is fatal, what a run keeps, and which instructions
write which part of the state.
-/

namespace Sys2Proof.Machine

/-! ### Steps -/

/-- Every step answers a next state: a fatal condition is one too (log 4). -/
theorem step_next (s : State) : ∃ t, step s = .next t := by
  cases hs : s.status with
  | faulted c => exact ⟨s, step_faulted hs⟩
  | running =>
    cases hf : s.fetchInstr with
    | error c => exact ⟨_, step_running_error hs hf⟩
    | ok i =>
      rw [step_running_ok hs hf]
      by_cases h : HandlerRaises s i
      · obtain ⟨c, hc⟩ := exec_raises h
        exact ⟨_, hc⟩
      · obtain ⟨u, hu, -⟩ := exec_completes h
        exact ⟨_, hu⟩

/-- A step leaves a part that no instruction writes, whether it runs an instruction or takes a fatal condition. -/
theorem step_unchanged {s t : State} {p : Part} (h : step s = .next t) (hp : ∀ i : Instr, p ∉ i.writes)
    (hframe : p ∉ [Part.pc, .dt, .st, .status]) : Part.Unchanged s t p := by
  rcases step_cases h with ⟨-, -, rfl⟩ | ⟨-, c, -, rfl⟩ | ⟨-, i, -, hexec⟩
  · cases p <;> rfl
  · exact unchangedBut_takeFault s c p (by simp at hframe ⊢; exact hframe.2.2.2)
  · exact exec_unchanged hexec (hp i) hframe

/-- Memory after an instruction is as before, or has bytes stored in it. -/
theorem exec_mem_cases {i : Instr} {s t : State} (h : exec i s = .next t) :
    t.mem = s.mem ∨ ∃ bs, t.mem = storedMem s bs := by
  by_cases hmem : .mem ∈ i.writes
  · rcases exec_next_cases h with ⟨-, c, rfl⟩ | ⟨hnot, -⟩
    · exact .inl rfl
    · cases i with
      | ldB x =>
        rw [exec_next_unique h (exec_ldB_inRange (Classical.not_not.mp hnot))]
        exact .inr ⟨_, rfl⟩
      | storeRegs x =>
        rw [exec_next_unique h (exec_storeRegs_inRange (Classical.not_not.mp hnot))]
        exact .inr ⟨_, rfl⟩
      | _ => simp [Instr.writes] at hmem
  · exact .inl (exec_unchanged h hmem (by decide))

theorem exec_inv {i : Instr} {s t : State} (hinv : s.Inv) (h : exec i s = .next t) : t.Inv := by
  unfold State.Inv
  rcases exec_mem_cases h with hmem | ⟨bs, hmem⟩
  · rw [hmem]
    exact hinv
  · rw [hmem]
    exact wf_stored s bs hinv

/-- Settles O49: the stores by `wf_stored` (`exec_inv`); a fatal condition leaves memory alone. -/
theorem everyStepKeepsMemoryCanonical : Obligations.EveryStepKeepsMemoryCanonical := by
  intro s t hinv hstep
  rcases step_cases hstep with ⟨-, -, rfl⟩ | ⟨-, c, -, rfl⟩ | ⟨-, i, -, hexec⟩
  · exact hinv
  · exact hinv
  · exact exec_inv hinv hexec

/-- Settles O50: nothing is listed at reset. -/
theorem resetMemoryIsCanonical : Obligations.ResetMemoryIsCanonical :=
  Mem.wf_nil

/-- Settles O51: no instruction has the keypad or the parameters in its list. -/
theorem noStepWritesKeypadOrParameters : Obligations.NoStepWritesKeypadOrParameters :=
  fun _ _ h =>
    ⟨step_unchanged h keys_notMem_writes (by decide), step_unchanged h cfg_notMem_writes (by decide)⟩

/-- Settles O4: a decoded word is well formed (`decode_right`), and the fetch hands it to `exec`. -/
theorem stepRunsTheDecodedInstruction : Obligations.StepRunsTheDecodedInstruction := by
  intro s i hrun hfetch hdecode
  have hright := decode_right s.cfg.admitAddImm (wordAtPc s)
  rw [hdecode] at hright
  have hinstr : s.fetchInstr = .ok i := by
    rw [State.fetchInstr_inRange hfetch, hdecode]
  exact ⟨hright.2.1, step_running_ok hrun hinstr⟩

theorem fetchInstr_of_illegalWord {s : State} (hfetch : FetchInRange s)
    (h : IllegalWord s.cfg.admitAddImm (wordAtPc s).toNat) :
    s.fetchInstr = .error (.invalidOpcode (wordAtPc s)) := by
  rw [State.fetchInstr_inRange hfetch, decode_of_illegalWord h]
  rfl

theorem fetchInstr_of_not_illegalWord {s : State} (hfetch : FetchInRange s)
    (h : ¬IllegalWord s.cfg.admitAddImm (wordAtPc s).toNat) : ∃ i, s.fetchInstr = .ok i := by
  obtain ⟨i, hi⟩ := decode_of_not_illegalWord h
  exact ⟨i, by rw [State.fetchInstr_inRange hfetch, hi]⟩

theorem fetchInstr_notInRange {s : State} (h : ¬FetchInRange s) :
    s.fetchInstr = .error (.addressOutOfRange (max 4096 s.pc.toNat)) := by
  simp only [FetchInRange, not_or] at h
  obtain ⟨hpolicy, hpast⟩ := h
  refine State.fetchInstr_outOfRange ?_ (by omega)
  cases hp : s.cfg.addrPolicy with
  | fault => rfl
  | wrap => exact absurd hp hpolicy

/-- Settles O5: the decoder rejects the word, and the step takes that condition. -/
theorem illegalWordIsFatal : Obligations.IllegalWordIsFatal :=
  fun _ hrun hfetch hillegal => step_running_error hrun (fetchInstr_of_illegalWord hfetch hillegal)

/-- Settles O6: the fetch reports the lowest address out of range. -/
theorem fetchPastMemoryIsFatal : Obligations.FetchPastMemoryIsFatal :=
  fun _ hrun hpolicy hpast => step_running_error hrun (State.fetchInstr_outOfRange hpolicy hpast)

/-- Settles O8: a completing instruction leaves the status running, so a step that ends faulted took a fatal
condition. -/
theorem fatalStepsChangeOnlyTheStatus : Obligations.FatalStepsChangeOnlyTheStatus := by
  intro s t hrun hstep hstopped
  rcases step_cases hstep with ⟨-, -, rfl⟩ | ⟨-, c, -, rfl⟩ | ⟨-, i, -, hexec⟩
  · exact absurd hrun hstopped
  · exact ⟨c, rfl⟩
  · have hraises : HandlerRaises s i := by
      by_contra hnot
      exact hstopped ((exec_running_iff hrun hexec).mpr hnot)
    obtain ⟨c, hc⟩ := exec_raises hraises
    exact ⟨c, exec_next_unique hexec hc⟩

/-- A step whose fetch or decode raises ends faulted. -/
theorem step_fetch_error {s : State} {c : Cause} (hrun : s.Running) (hf : s.fetchInstr = .error c) :
    ∃ t, step s = .next t ∧ ¬t.Running :=
  ⟨_, step_running_error hrun hf, not_running_takeFault s c⟩

/-- Settles O9: the fetch, the word and the handler are met in this order (R189); the last one by
`exec_running_iff`. -/
theorem fatalExactlyUnderTheListedConditions : Obligations.FatalExactlyUnderTheListedConditions := by
  intro s hrun
  by_cases hfetch : FetchInRange s
  · by_cases hillegal : IllegalWord s.cfg.admitAddImm (wordAtPc s).toNat
    · obtain ⟨t, hstep, hstopped⟩ := step_fetch_error hrun (fetchInstr_of_illegalWord hfetch hillegal)
      exact ⟨t, hstep, iff_of_true hstopped (.inr (.inl ⟨hfetch, hillegal⟩))⟩
    · obtain ⟨i, hi⟩ := fetchInstr_of_not_illegalWord hfetch hillegal
      obtain ⟨t, hstep⟩ := step_next s
      have hexec : exec i s = .next t := (step_running_ok hrun hi).symm.trans hstep
      refine ⟨t, hstep, ?_⟩
      rw [exec_running_iff hrun hexec]
      simp [hfetch, hillegal, hi]
  · obtain ⟨t, hstep, hstopped⟩ := step_fetch_error hrun (fetchInstr_notInRange hfetch)
    exact ⟨t, hstep, iff_of_true hstopped (.inl hfetch)⟩

/-! ### Runs -/

/-- A state that steps to itself is never left. -/
theorem run_of_step_self {s : State} (h : step s = .next s) (k : Nat) : Sys2Proof.core.run k s = .next s := by
  induction k with
  | zero => exact run_zero s
  | succ k ih => exact (run_succ k h).trans ih

/-- Settles O7: a faulted engine steps to itself. -/
theorem faultedEngineIsStuck : Obligations.FaultedEngineIsStuck :=
  fun _ _ hfaulted => run_of_step_self (step_faulted hfaulted)

/-- A safe run starts in a running state: a faulted one would stay as it is. -/
theorem SafeRun.running {k : Nat} {s : State} (h : SafeRun k s) : s.Running := by
  obtain ⟨t, hrun, ht⟩ := h
  cases hs : s.status with
  | running => exact hs
  | faulted c =>
    rw [faultedEngineIsStuck s c hs k] at hrun
    rw [Host.Outcome.next.inj hrun]
    exact ht

theorem safeRun_succ {k : Nat} {s u : State} (h : step s = .next u) : SafeRun (k + 1) s ↔ SafeRun k u := by
  simp only [SafeRun, run_succ k h]

/-- Settles O10, by induction on the shorter run: each state a safe run passes is the start of a safe run. -/
theorem safeRunsWereSafeThroughout : Obligations.SafeRunsWereSafeThroughout := by
  intro s j k hjk hsafe
  induction j generalizing s k with
  | zero => exact ⟨s, run_zero s, hsafe.running⟩
  | succ j ih =>
    obtain ⟨k, rfl⟩ : ∃ k', k = k' + 1 := ⟨k - 1, by omega⟩
    obtain ⟨u, hu⟩ := step_next s
    rw [safeRun_succ hu] at hsafe ⊢
    exact ih u k (by omega) hsafe

/-- A jump to itself with both timers at zero writes the values that are there. -/
theorem State.Final.step_self {s : State} (h : s.Final) : step s = .next s := by
  obtain ⟨hrun, ⟨nnn, hfetch, htarget⟩, hdt, hst⟩ := h
  rw [step_running_ok hrun hfetch, exec_jp_eq, htarget]
  have hsame : (s.advance.setPc s.pc).tick = { s with dt := countDown s.dt, st := countDown s.st } := rfl
  have hdt : countDown s.dt = s.dt := by rw [hdt]; rfl
  have hst : countDown s.st = s.st := by rw [hst]; rfl
  rw [hsame, hdt, hst]

/-- Settles O59: a final state steps to itself. -/
theorem finalStatesNeverChange : Obligations.FinalStatesNeverChange :=
  fun _ hfinal => run_of_step_self hfinal.step_self

/-! ### Which instructions write which part -/

/-- Settles O52: the framebuffer is in the list of no other instruction. -/
theorem onlyClsAndDrwWriteTheFramebuffer : Obligations.OnlyClsAndDrwWriteTheFramebuffer := by
  intro i s t h hother
  have hfb : .fb ∉ i.writes := by
    cases i with
    | cls | drw => simp at hother
    | _ => simp [Instr.writes]
  exact exec_unchanged h hfb (by decide)

/-- Settles O53: memory is in the list of no other instruction, and a list is kept as a list. -/
theorem onlyTheTwoStoresWriteMemory : Obligations.OnlyTheTwoStoresWriteMemory := by
  intro i s t h hother
  have hmem : .mem ∉ i.writes := by
    cases i with
    | ldB | storeRegs => simp at hother
    | _ => simp [Instr.writes]
  exact exec_unchanged h hmem (by decide)

/-- Settles O56: the index is in the list of no other instruction. -/
theorem onlyThreeInstructionsWriteTheIndex : Obligations.OnlyThreeInstructionsWriteTheIndex := by
  intro i s t h hother
  have hidx : .idx ∉ i.writes := by
    cases i with
    | ldI | addI | ldF => simp at hother
    | _ => simp [Instr.writes]
  exact exec_unchanged h hidx (by decide)

/-- Settles O57: the count of draws is in the list of no other instruction. -/
theorem onlyRndDrawsARandomByte : Obligations.OnlyRndDrawsARandomByte := by
  intro i s t h hother
  have hdraws : .draws ∉ i.writes := by
    cases i with
    | rnd => simp at hother
    | _ => simp [Instr.writes]
  exact exec_unchanged h hdraws (by decide)

theorem stack_notMem_writes {i : Instr} (h : ∀ nnn, i ≠ .call nnn) : .stack ∉ i.writes := by
  cases i with
  | call => simp at h
  | _ => simp [Instr.writes]

theorem sp_notMem_writes {i : Instr} (hcall : ∀ nnn, i ≠ .call nnn) (hret : i ≠ .ret) : .sp ∉ i.writes := by
  cases i with
  | call => simp at hcall
  | ret => simp at hret
  | _ => simp [Instr.writes]

/-- `CALL` goes one deeper or overflows. -/
theorem exec_call_depth {nnn : Imm12} {s t : State} (h : exec (.call nnn) s = .next t) :
    t.sp.val = s.sp.val ∨ t.sp.val = s.sp.val + 1 := by
  by_cases hroom : s.sp.val < 16
  · rw [exec_next_unique h (exec_call_room nnn hroom)]
    exact .inr rfl
  · rw [exec_next_unique h (exec_call_full nnn (by omega))]
    exact .inl rfl

/-- `RET` goes one shallower or underflows. -/
theorem exec_ret_depth {s t : State} (h : exec .ret s = .next t) :
    t.sp.val = s.sp.val ∨ t.sp.val + 1 = s.sp.val := by
  by_cases hsome : 0 < s.sp.val
  · rw [exec_next_unique h (exec_ret_some hsome)]
    exact .inr (Nat.sub_add_cancel hsome)
  · rw [exec_next_unique h (exec_ret_empty (by omega))]
    exact .inl rfl

/-- Settles O54: the depth of `CALL` and `RET` by their cases, all else from the lists of parts written. -/
theorem onlyCallAndRetTouchTheStack : Obligations.OnlyCallAndRetTouchTheStack := by
  intro i s t h
  have hkept (hcall : ∀ nnn, i ≠ .call nnn) (hret : i ≠ .ret) : t.sp = s.sp :=
    exec_unchanged h (sp_notMem_writes hcall hret) (by decide)
  refine ⟨fun hcall => exec_unchanged h (stack_notMem_writes hcall) (by decide), hkept, ?_⟩
  cases i with
  | call nnn => exact (exec_call_depth h).imp_right .inl
  | ret => exact (exec_ret_depth h).imp_right .inr
  | _ => exact .inl (congrArg Fin.val (hkept (by simp) (by simp)))

/-- Registers outside those a bulk load reaches are kept, whether it completes or raises. -/
theorem exec_loadRegs_kept {x r : Reg} {s t : State} (h : exec (.loadRegs x) s = .next t) (hr : x < r) :
    t.v[r] = s.v[r] := by
  by_cases hin : DataInRange s (x.val + 1)
  · rw [exec_next_unique h (exec_loadRegs_inRange hin)]
    exact (loadRegsFrom_bytesAtIndex s x r).trans (if_neg (not_le.mpr hr))
  · rw [exec_next_unique h (exec_loadRegs_notInRange hin)]
    rfl

/-- Settles O55: the destinations other than `VF` one by one; the instructions without one by their lists. -/
theorem onlyTheSixFlagWritersWriteVf : Obligations.OnlyTheSixFlagWritersWriteVf := by
  intro i s t h hdest
  have hsetReg (x : Reg) (b : Byte) (hx : x ≠ 15) : (s.advance.setReg x b).tick.v[(15 : Reg)] = s.v[(15 : Reg)] :=
    (setReg_completes s x b).2.1 15 (by simpa using Ne.symm hx)
  cases i with
  | addReg | subReg | shr | subnReg | shl | drw => exact hdest.elim
  | ldImm | addImm | ldReg | orReg | andReg | xorReg | ldVxDt | rnd =>
    rw [exec_next_unique h rfl]
    exact hsetReg _ _ hdest
  | ldVxK x =>
    rcases exec_ldVxK_cases x s with ⟨k, -, hexec⟩ | ⟨-, hexec⟩
    · rw [exec_next_unique h hexec]
      exact hsetReg _ _ hdest
    · rw [exec_next_unique h hexec]
      rfl
  | loadRegs x => exact exec_loadRegs_kept h (lt_of_le_of_ne (Fin.le_last x) hdest)
  | _ =>
    have hv : t.v = s.v := exec_unchanged h (p := .v) (by simp [Instr.writes]) (by decide)
    rw [hv]

/-- Settles O48: a completing instruction ticks what its handler left in the timers, which is the old value but for
the two timer writes. -/
theorem everyCompletedInstructionTicksOnce : Obligations.EveryCompletedInstructionTicksOnce := by
  intro i s t hrun h
  constructor
  · intro hcompleted
    cases i with
    | ldDtVx x | ldStVx x =>
      rw [exec_next_unique h rfl]
      exact tickedFrom_tick _
    | _ =>
      obtain ⟨u, rfl, hframe⟩ := exec_completed hcompleted h
      exact hframe.tickedFrom (by simp [Instr.writes]) (by simp [Instr.writes])
  · intro hstopped
    rcases exec_next_cases h with ⟨-, c, rfl⟩ | ⟨hnot, -⟩
    · exact ⟨rfl, rfl⟩
    · exact absurd ((exec_running_iff hrun h).mpr hnot) hstopped

end Sys2Proof.Machine
end

section
/-!
PROOFS, the instructions on registers, `pc`, the stack, the index, the keypad, the random source and the timers; reset,
construction and `set_key`. Each statement is the equation of `exec` for the instruction and the frame of its handler.
-/

namespace Sys2Proof.Machine

/-! ### Reset, construction and the keypad -/

theorem reset_registers (r : Reg) : State.reset.v[r] = 0 :=
  Vector.getElem_replicate r.isLt

theorem reset_stack (k : Fin 16) : State.reset.stack[k] = 0 :=
  Vector.getElem_replicate k.isLt

theorem reset_keys (k : Fin 16) : State.reset.keys[k] = false :=
  Vector.getElem_replicate k.isLt

/-- Settles O1: the reset state, part by part. -/
theorem resetHoldsTheConstructionValues : Obligations.ResetHoldsTheConstructionValues :=
  ⟨reset_registers, rfl, rfl, rfl, reset_stack, rfl, rfl, reset_keys, Framebuffer.cell_blank, fun _ => rfl, rfl, rfl⟩

theorem wf_constructedMemory (cfg : Config) {rom : List Byte} (h : rom.length ≤ romMax) :
    Mem.wf (constructedMemory cfg rom) = true := by
  have hrom : 0x200 + rom.length ≤ 4096 := Nat.add_le_add_left h 0x200
  exact Mem.wf_writeFrom rom _ hrom (Mem.wf_writeFrom _ _ (by simp) Mem.wf_nil)

/-- The font and the image lie apart, so each is read where it was copied (R210). -/
theorem read_constructedMemory (cfg : Config) (rom : List Byte) (a : Nat) :
    Mem.read (constructedMemory cfg rom) a =
      if h : 0x050 ≤ a ∧ a < 0x0A0 then cfg.font[a - 0x050]'(by omega)
      else if h : 0x200 ≤ a ∧ a < 0x200 + rom.length then rom[a - 0x200]'(by omega)
      else 0 := by
  rw [constructedMemory, Mem.read_writeFrom]
  by_cases hfont : 0x050 ≤ a ∧ a < 0x0A0
  · rw [dif_neg (by omega), dif_pos hfont, Mem.read_writeFrom, dif_pos (by simpa using hfont)]
    simp
  · rw [dif_neg hfont]
    refine dite_congr rfl (fun _ => rfl) fun _ => ?_
    rw [Mem.read_writeFrom, dif_neg (by simpa using hfont), Mem.read_nil, Mem.unlisted, dif_neg hfont]

theorem keptBut_construct (cfg : Config) (rom : List Byte) :
    KeptBut [.mem, .cfg] State.reset { State.reset with mem := constructedMemory cfg rom, cfg := cfg } := by
  intro p hp
  cases p with
  | mem | cfg => simp at hp
  | _ => simp [Part.Same]

/-- Settles O2: memory by `read_constructedMemory` and `wf_constructedMemory`. -/
theorem constructionCopiesFontAndImage : Obligations.ConstructionCopiesFontAndImage :=
  fun cfg rom hfits => ⟨_, construct_of_le_romMax cfg hfits, rfl, wf_constructedMemory cfg hfits,
    keptBut_construct cfg rom, read_constructedMemory cfg rom⟩

theorem getElem_setKey (k j : Fin 16) (pressed : Bool) (s : State) :
    (setKey k pressed s).keys[j] = if j = k then pressed else s.keys[j] := by
  simp only [setKey, Fin.getElem_fin, Vector.getElem_set, Fin.ext_iff, eq_comm (a := j.val)]

theorem unchangedBut_setKey (k : Fin 16) (pressed : Bool) (s : State) :
    UnchangedBut [.keys] s (setKey k pressed s) := by
  intro p hp
  cases p with
  | keys => simp at hp
  | _ => rfl

/-- Settles O60: `setKey` is one update of the flags. -/
theorem setKeyWritesOneFlag : Obligations.SetKeyWritesOneFlag :=
  fun k pressed s => ⟨fun j => getElem_setKey k j pressed s, (unchangedBut_setKey k pressed s).keptBut⟩

/-! ### Control flow -/

/-- Settles O15: the handler replaces the framebuffer alone. -/
theorem clsTurnsEveryCellOff : Obligations.ClsTurnsEveryCellOff :=
  ⟨fun _ => rfl, fun s => ⟨_, exec_cls_eq s, Framebuffer.cell_blank, (unchangedBut_setFb _ _).completes (by decide)⟩⟩

/-- Settles O16, by the two cases of the depth. -/
theorem retPopsTheReturnAddress : Obligations.RetPopsTheReturnAddress := by
  refine ⟨fun _ => rfl, fun s => ⟨fun hsome => ?_, exec_ret_empty⟩⟩
  have hframe := unchangedBut_return s (s.stack[s.sp.val - 1]'(by omega)) ⟨s.sp.val - 1, by omega⟩
  exact ⟨_, exec_ret_some hsome, rfl, rfl, hframe.tickedFrom (by decide) (by decide), hframe.keptBut_tick⟩

/-- Settles O17: the handler moves `pc` alone. -/
theorem jpSetsPc : Obligations.JpSetsPc :=
  ⟨fun _ nnn => decode_encode (i := .jp nnn) rfl,
    fun nnn s => ⟨_, exec_jp_eq nnn s, immAddr_toNat nnn, (unchangedBut_setPc s _).jumps⟩⟩

/-- Settles O18, by the two cases of the depth. -/
theorem callPushesTheAdvancedPc : Obligations.CallPushesTheAdvancedPc := by
  refine ⟨fun _ nnn => decode_encode (i := .call nnn) rfl, fun nnn s => ⟨fun hroom => ?_, exec_call_full nnn⟩⟩
  have hframe := unchangedBut_call s (immAddr nnn) ⟨s.sp.val + 1, by omega⟩ (s.stack.set s.sp.val (s.pc + 2))
  have hstack (k : Fin 16) : (s.stack.set s.sp.val (s.pc + 2))[k] =
      if k.val = s.sp.val then s.pc + 2 else s.stack[k] := by
    simp only [Fin.getElem_fin, Vector.getElem_set, eq_comm (a := k.val)]
  exact ⟨_, exec_call_room nnn hroom, immAddr_toNat nnn, rfl, hstack, hframe.tickedFrom (by decide) (by decide),
    hframe.keptBut_tick⟩

/-- Settles O21: the entry the call wrote is the one the return pops. -/
theorem callThenReturnRoundTrips : Obligations.CallThenReturnRoundTrips := by
  intro nnn s t u hrun hcall ht hsp hstack
  have hroom : s.sp.val < 16 := sp_lt_of_not_full ((exec_running_iff hrun hcall).mp ht)
  rw [exec_next_unique hcall (exec_call_room nnn hroom)] at hsp hstack
  have hdepth : u.sp.val = s.sp.val + 1 := congrArg Fin.val hsp
  have hstack : u.stack = s.stack.set s.sp.val (s.pc + 2) := hstack
  refine ⟨_, exec_ret_some (by omega), ?_, ?_⟩
  · simp [hstack, hdepth]
  · exact Fin.ext (by simp [hdepth])

/-- Where a skip leaves `pc`, by the condition it tests. -/
theorem skipIf_pc_of_iff (s : State) {c : Bool} {P : Prop} [Decidable P] (h : c = true ↔ P) :
    (s.advance.skipIf c).tick.pc = if P then s.pc + 4 else s.pc + 2 := by
  rw [State.tick_pc, State.skipIf_pc, State.advance_pc]
  exact if_congr h (add_two_two s.pc) rfl

/-- Where a skip leaves `pc`, by the negation of the condition it tests. -/
theorem skipIf_pc_of_iff_not (s : State) {c : Bool} {P : Prop} [Decidable P] (h : c = true ↔ ¬P) :
    (s.advance.skipIf c).tick.pc = if P then s.pc + 2 else s.pc + 4 := by
  rw [skipIf_pc_of_iff s h, ite_not]

/-- The frame of a skip. -/
theorem skipIf_advance_jumps (s : State) (c : Bool) :
    TickedFrom s.dt s.st (s.advance.skipIf c).tick ∧ KeptBut [.pc, .dt, .st] s (s.advance.skipIf c).tick :=
  (((unchangedBut_setPc s _).trans (unchangedBut_skipIf s.advance c)).mono (by simp)).jumps

/-- Settles O22, by the condition each skip tests. -/
theorem immediateSkips : Obligations.ImmediateSkips :=
  ⟨fun _ x nn => decode_encode (i := .seImm x nn) rfl, fun _ x nn => decode_encode (i := .sneImm x nn) rfl,
    fun x nn s =>
      ⟨⟨_, exec_seImm_eq x nn s, skipIf_pc_of_iff s beq_iff_eq, skipIf_advance_jumps s _⟩,
        ⟨_, exec_sneImm_eq x nn s, skipIf_pc_of_iff s bne_iff_ne, skipIf_advance_jumps s _⟩⟩⟩

/-- Settles O23, by the condition each skip tests. -/
theorem registerSkips : Obligations.RegisterSkips :=
  ⟨fun _ x y => decode_encode (i := .seReg x y) rfl, fun _ x y => decode_encode (i := .sneReg x y) rfl,
    fun x y s =>
      ⟨⟨_, exec_seReg_eq x y s, skipIf_pc_of_iff s beq_iff_eq, skipIf_advance_jumps s _⟩,
        ⟨_, exec_sneReg_eq x y s, skipIf_pc_of_iff s bne_iff_ne, skipIf_advance_jumps s _⟩⟩⟩

/-- A 12-bit address plus a byte does not wrap (R108). -/
theorem immAddr_add_zextByte_toNat (nnn : Imm12) (b : Byte) :
    (immAddr nnn + zextByte b).toNat = nnn.toNat + b.toNat := by
  have := nnn.isLt
  have := b.isLt
  rw [BitVec.toNat_add, immAddr_toNat, zextByte_toNat]
  omega

/-- Settles O24: the sum stays below 65536. -/
theorem jpV0AddsRegisterZero : Obligations.JpV0AddsRegisterZero :=
  ⟨fun _ nnn => decode_encode (i := .jpV0 nnn) rfl,
    fun nnn s => ⟨_, exec_jpV0_eq nnn s, immAddr_add_zextByte_toNat nnn _, (unchangedBut_setPc s _).jumps⟩⟩

/-! ### Arithmetic and logic -/

/-- Settles O25: one register written (`setReg_completes`). -/
theorem registerLoads : Obligations.RegisterLoads :=
  ⟨fun _ x nn => decode_encode (i := .ldImm x nn) rfl, fun _ x y => decode_encode (i := .ldReg x y) rfl,
    fun x nn s => ⟨_, exec_ldImm_eq x nn s, setReg_completes s x nn⟩,
    fun x y s => ⟨_, exec_ldReg_eq x y s, setReg_completes s x _⟩⟩

/-- Settles O26: one register written, with the 8-bit sum. -/
theorem addImmediateRecordsNoCarry : Obligations.AddImmediateRecordsNoCarry := by
  intro x nn s
  obtain ⟨hx, hframe⟩ := setReg_completes s x (s.reg x + nn)
  exact ⟨_, exec_addImm_eq x nn s, by rw [hx]; exact BitVec.toNat_add _ _, hframe⟩

/-- Settles O27: one register written, with the operation on the old bits. -/
theorem logicOperationsKeepTheFlag : Obligations.LogicOperationsKeepTheFlag := by
  intro x y s
  obtain ⟨hor, horFrame⟩ := setReg_completes s x (s.reg x ||| s.reg y)
  obtain ⟨hand, handFrame⟩ := setReg_completes s x (s.reg x &&& s.reg y)
  obtain ⟨hxor, hxorFrame⟩ := setReg_completes s x (s.reg x ^^^ s.reg y)
  exact ⟨⟨_, exec_orReg_eq x y s, fun k => by rw [hor]; exact BitVec.getLsbD_or, horFrame⟩,
    ⟨_, exec_andReg_eq x y s, fun k => by rw [hand]; exact BitVec.getLsbD_and, handFrame⟩,
    ⟨_, exec_xorReg_eq x y s, fun k => by rw [hxor]; exact BitVec.getLsbD_xor, hxorFrame⟩⟩

/-- Settles O28: flag and sum written in that order (`flagThenResult_completes`). -/
theorem addWithCarryOut : Obligations.AddWithCarryOut := by
  intro x y s
  obtain ⟨hx, hflag, hframe⟩ := flagThenResult_completes s x (carryOut (s.reg x) (s.reg y)) (s.reg x + s.reg y)
  exact ⟨_, exec_addReg_eq x y s, by rw [hx]; exact BitVec.toNat_add _ _,
    fun hne => (hflag hne).trans (flagByte_carryOut _ _), hframe⟩

/-- The difference of two bytes modulo 256. -/
theorem byte_sub_toNat (a b : Byte) : (a - b).toNat = (256 + a.toNat - b.toNat) % 256 := by
  have := a.isLt
  have := b.isLt
  rw [BitVec.toNat_sub]
  omega

/-- A difference and its not-borrow, written flag first. -/
theorem difference_completes (s : State) (x : Reg) (a b : Byte) :
    ((s.advance.flagThenResult x (notBorrow a b) (a - b)).tick.v[x]).toNat = (256 + a.toNat - b.toNat) % 256 ∧
      (x ≠ 15 → (s.advance.flagThenResult x (notBorrow a b) (a - b)).tick.v[(15 : Reg)] =
        if b.toNat ≤ a.toNat then 1 else 0) ∧
      RegsKeptBut [x, 15] s (s.advance.flagThenResult x (notBorrow a b) (a - b)).tick ∧
      Completes [.v] s (s.advance.flagThenResult x (notBorrow a b) (a - b)).tick := by
  obtain ⟨hx, hflag, hframe⟩ := flagThenResult_completes s x (notBorrow a b) (a - b)
  exact ⟨by rw [hx, byte_sub_toNat], fun hne => (hflag hne).trans (flagByte_notBorrow a b), hframe⟩

/-- Settles O29: the two differences are one operation with the operands exchanged. -/
theorem subtractWithNotBorrowOut : Obligations.SubtractWithNotBorrowOut :=
  fun x y s => ⟨⟨_, exec_subReg_eq x y s, difference_completes s x _ _⟩,
    ⟨_, exec_subnReg_eq x y s, difference_completes s x _ _⟩⟩

/-- What a shift leaves: the flag alone where it is the destination, and then shifted itself. -/
theorem flagThenShift_completes (s : State) (x : Reg) (f : Bool) (g : Byte → Byte) :
    (x = 15 → (s.advance.flagThenShift x f g).tick.v[(15 : Reg)] = g (flagByte f)) ∧
      (x ≠ 15 → (s.advance.flagThenShift x f g).tick.v[x] = g s.v[x] ∧
        (s.advance.flagThenShift x f g).tick.v[(15 : Reg)] = flagByte f) ∧
      RegsKeptBut [x, 15] s (s.advance.flagThenShift x f g).tick ∧
      Completes [.v] s (s.advance.flagThenShift x f g).tick := by
  obtain ⟨hx, hflag, hframe⟩ := flagThenResult_completes s x f (g ((s.advance.setFlag f).reg x))
  have hread : (s.advance.setFlag f).reg x = if x = 15 then flagByte f else s.v[x] :=
    getElem_set_reg s.v vf x (flagByte f)
  refine ⟨?_, fun hne => ⟨?_, hflag hne⟩, hframe⟩
  · rintro rfl
    rw [if_pos rfl] at hread
    exact hx.trans (congrArg g hread)
  · rw [if_neg hne] at hread
    exact hx.trans (congrArg g hread)

/-- Settles O30, by whether the destination is the flag. -/
theorem shiftsByOne : Obligations.ShiftsByOne := by
  intro x y s
  obtain ⟨hrightFlag, hrightOther, hrightFrame⟩ :=
    flagThenShift_completes s x (shiftedOutRight (s.reg x)) fun b => b >>> 1
  obtain ⟨hleftFlag, hleftOther, hleftFrame⟩ :=
    flagThenShift_completes s x (shiftedOutLeft (s.reg x)) fun b => b <<< 1
  obtain ⟨hhalf, hbit0, hzero⟩ := shiftRight_one (s.v[x])
  obtain ⟨htwice, hbit7, htwo⟩ := shiftLeft_one (s.v[x])
  refine ⟨⟨_, exec_shr_eq x y s, ?_, hrightFrame⟩, ⟨_, exec_shl_eq x y s, ?_, hleftFrame⟩⟩
  · split
    · next hx => exact (hrightFlag hx).trans hzero
    · next hx =>
      obtain ⟨hresult, hflag⟩ := hrightOther hx
      exact ⟨(congrArg _ hresult).trans hhalf, (congrArg _ hflag).trans hbit0⟩
  · split
    · next hx => exact (congrArg _ (hleftFlag hx)).trans htwo
    · next hx =>
      obtain ⟨hresult, hflag⟩ := hleftOther hx
      exact ⟨(congrArg _ hresult).trans htwice, (congrArg _ hflag).trans hbit7⟩

/-! ### The index -/

/-- Settles O31: the handler writes the index alone. -/
theorem indexLoadAndAdd : Obligations.IndexLoadAndAdd := by
  refine ⟨fun _ nnn => decode_encode (i := .ldI nnn) rfl, fun _ x => decode_encode (i := .addI x) rfl,
    fun nnn s => ⟨_, exec_ldI_eq nnn s, immAddr_toNat nnn, (unchangedBut_setIdx _ _).completes (by decide)⟩,
    fun x s => ⟨_, exec_addI_eq x s, ?_, (unchangedBut_setIdx _ _).completes (by decide)⟩⟩
  exact (BitVec.toNat_add _ _).trans (by rw [zextByte_toNat, State.reg_eq])

/-- Settles O32: the handler writes the index alone, and the formula does not wrap. -/
theorem fontAddressOfADigit : Obligations.FontAddressOfADigit :=
  fun x s => ⟨_, exec_ldF_eq x s, glyphAddr_toNat _, (unchangedBut_setIdx _ _).completes (by decide)⟩

/-! ### Keypad, random source, timers -/

/-- Settles O42: a value below 16 names a key, whose flag is the condition. -/
theorem keySkipsTestTheNamedKey : Obligations.KeySkipsTestTheNamedKey := by
  intro x s k hk
  have hlegal : (s.v[x]).toNat < 16 := by omega
  have hkey : s.keys[(s.v[x]).toNat] = s.keys[k] := getElem_congr_idx hk
  exact ⟨⟨_, exec_skp_legal hlegal, skipIf_pc_of_iff s (by rw [hkey]), skipIf_advance_jumps s _⟩,
    ⟨_, exec_sknp_legal hlegal, skipIf_pc_of_iff s (by rw [hkey, Bool.not_eq_true']), skipIf_advance_jumps s _⟩⟩

/-- Settles O43: a value above 15 names no key. -/
theorem keyIndexAboveFifteenIsFatal : Obligations.KeyIndexAboveFifteenIsFatal :=
  fun _ _ habove => ⟨exec_skp_illegal habove, exec_sknp_illegal habove⟩

/-- Settles O44, by whether a key is pressed. -/
theorem keyWaitTakesTheLowestKeyOrRepeats : Obligations.KeyWaitTakesTheLowestKeyOrRepeats := by
  refine ⟨fun _ x => decode_encode (i := .ldVxK x) rfl, fun x s => ⟨fun k hk hbelow => ?_, fun hnone => ?_⟩⟩
  · obtain ⟨hx, hframe⟩ := setReg_completes s x (BitVec.ofNat 8 k.val)
    have hbyte : (BitVec.ofNat 8 k.val).toNat = k.val := Nat.mod_eq_of_lt (by omega)
    exact ⟨_, exec_ldVxK_hit x hk hbelow, by rw [hx, hbyte], hframe⟩
  · exact ⟨_, exec_ldVxK_miss x hnone, tickedFrom_tick s, keptBut_tick s⟩

/-- Settles O46: one draw and one register written. -/
theorem randomByteIsMasked : Obligations.RandomByteIsMasked := by
  intro x nn s
  obtain ⟨hx, hregs, -⟩ := setReg_completes s x (Config.rnd s.draws &&& nn)
  refine ⟨_, exec_rnd_eq x nn s, hx, fun k hk => ?_, rfl, hregs,
    (unchangedBut_drawMaskInto _ _ _ _).completes (by decide)⟩
  exact (congrArg (BitVec.getLsbD · k) hx).trans (by simp [hk])

/-- A timer write leaves the other timer to the tick, and `pc` to the advance. -/
theorem timerWrite_kept {p : Part} {s u : State} (h : UnchangedBut [p] s.advance u) (hp : p = .dt ∨ p = .st) :
    KeptBut [.pc, .dt, .st] s u.tick := by
  have hsub : [.pc] ++ [p] ++ [.dt, .st] ⊆ [Part.pc, .dt, .st] := by rcases hp with rfl | rfl <;> simp
  exact ((((unchangedBut_setPc s _).trans h).trans (unchangedBut_tick u)).mono hsub).keptBut

/-- Settles O47: the tick counts down what the handler left. -/
theorem timerReadsAndWrites : Obligations.TimerReadsAndWrites :=
  ⟨fun _ x => decode_encode (i := .ldVxDt x) rfl, fun _ x => decode_encode (i := .ldDtVx x) rfl,
    fun _ x => decode_encode (i := .ldStVx x) rfl, fun x s =>
      ⟨⟨_, exec_ldVxDt_eq x s, setReg_completes s x s.dt⟩,
        ⟨_, exec_ldDtVx_eq x s, rfl, tickedFrom_tick _, timerWrite_kept (unchangedBut_setDt _ _) (.inl rfl)⟩,
        ⟨_, exec_ldStVx_eq x s, rfl, tickedFrom_tick _, timerWrite_kept (unchangedBut_setSt _ _) (.inr rfl)⟩⟩⟩

/-! ### The table of `pc` -/

/-- Settles O58: the instructions that move `pc` by their equations, all others by the advance. -/
theorem pcAfterEveryInstruction : Obligations.PcAfterEveryInstruction := by
  intro i s t hrun h ht
  have hnot : ¬HandlerRaises s i := (exec_running_iff hrun h).mp ht
  cases i with
  | jp nnn =>
    rw [exec_next_unique h (exec_jp_eq nnn s)]
    exact immAddr_toNat nnn
  | call nnn =>
    rw [exec_next_unique h (exec_call_room nnn (sp_lt_of_not_full hnot))]
    exact immAddr_toNat nnn
  | jpV0 nnn =>
    rw [exec_next_unique h (exec_jpV0_eq nnn s)]
    exact immAddr_add_zextByte_toNat nnn _
  | ret =>
    have hsome : 0 < s.sp.val := Nat.pos_of_ne_zero hnot
    rw [exec_next_unique h (exec_ret_some hsome)]
    exact ⟨hsome, rfl⟩
  | seImm x nn =>
    rw [exec_next_unique h (exec_seImm_eq x nn s)]
    exact skipIf_pc_of_iff s beq_iff_eq
  | sneImm x nn =>
    rw [exec_next_unique h (exec_sneImm_eq x nn s)]
    exact skipIf_pc_of_iff_not s bne_iff_ne
  | seReg x y =>
    rw [exec_next_unique h (exec_seReg_eq x y s)]
    exact skipIf_pc_of_iff s beq_iff_eq
  | sneReg x y =>
    rw [exec_next_unique h (exec_sneReg_eq x y s)]
    exact skipIf_pc_of_iff_not s bne_iff_ne
  | skp x =>
    have hlegal : (s.v[x]).toNat < 16 := key_lt_of_not_above hnot
    rw [exec_next_unique h (exec_skp_legal hlegal)]
    exact ⟨hlegal, skipIf_pc_of_iff s Iff.rfl⟩
  | sknp x =>
    have hlegal : (s.v[x]).toNat < 16 := key_lt_of_not_above hnot
    rw [exec_next_unique h (exec_sknp_legal hlegal)]
    exact ⟨hlegal, skipIf_pc_of_iff_not s (by simp)⟩
  | ldVxK x =>
    rcases exec_ldVxK_cases x s with ⟨k, hk, hexec⟩ | ⟨hnone, hexec⟩
    · rw [exec_next_unique h hexec]
      exact (if_pos ⟨k, hk⟩).symm
    · rw [exec_next_unique h hexec]
      exact (if_neg (by simp [hnone])).symm
  | _ =>
    obtain ⟨u, rfl, hframe⟩ := exec_completed ht h
    exact hframe .pc (by simp [Instr.writes])

end Sys2Proof.Machine
end

section
/-!
PROOFS, the data accesses at `I`: what a store leaves in memory, then the statements on
LD B, LD [I], LD Vx, [I] and on accesses past memory (spec/42_memory_index.md R143 to R145, R54, R64, R185).
-/

namespace Sys2Proof.Machine

/-! ### Reading after the stores -/

/-- A stored byte reads back at its address. -/
theorem read_storedMem {s : State} {bs : List Byte} (hn : bs.length ≤ 4096) {k : Nat} (hk : k < bs.length) :
    Mem.read (storedMem s bs) (dataAddr s k) = bs[k] :=
  read_stored s bs s.mem hn hk

/-- An address that is none of the stored ones reads as before. -/
theorem read_storedMem_other {s : State} {bs : List Byte} {a : Nat}
    (ha : a ∉ (List.range bs.length).map (dataAddr s)) : Mem.read (storedMem s bs) a = Mem.read s.mem a :=
  read_stored_other s bs s.mem a fun k hk e => ha (List.mem_map.mpr ⟨k, List.mem_range.mpr hk, e.symm⟩)

theorem completes_setMem (s : State) (m : Memory) : Completes [.mem] s (s.advance.setMem m).tick :=
  (unchangedBut_setMem _ m).completes (by decide)

theorem advance_dataAddrs_inRange {s : State} {n : Nat} (h : DataInRange s n) :
    s.advance.dataAddrs n = .ok ((List.range n).map (dataAddr s)) :=
  State.dataAddrs_inRange ((dataInRange_advance s n).mpr h)

/-! ### The statements -/

/-- Settles O33: the three digits are the bytes stored at the offsets 0, 1 and 2. -/
theorem bcdStoresThreeDigits : Obligations.BcdStoresThreeDigits := by
  intro x s hin
  have hread (k : Nat) (hk : k < 3) :
      Mem.read (storedMem s (bcdDigits (s.reg x))) (dataAddr s k) = (bcdDigits (s.reg x))[k] :=
    read_storedMem (by simp) hk
  have hdigits := bcdDigits_toNat (s.reg x)
  simp only [bcdDigits, List.map_cons, List.map_nil, List.cons.injEq, and_true] at hdigits
  obtain ⟨hhundreds, htens, hones⟩ := hdigits
  exact ⟨advance_dataAddrs_inRange hin, _, exec_ldB_inRange hin,
    (congrArg BitVec.toNat (hread 0 (by decide))).trans hhundreds,
    (congrArg BitVec.toNat (hread 1 (by decide))).trans htens,
    (congrArg BitVec.toNat (hread 2 (by decide))).trans hones,
    fun a ha => read_storedMem_other ha, completes_setMem s _⟩

/-- What a completed LD [I], Vx leaves in memory at the address of each register (R144). -/
theorem read_stored_register {x k : Reg} (s : State) (hk : k ≤ x) :
    Mem.read (storedMem s (s.regsTo x)) (dataAddr s k.val) = s.v[k] := by
  have hlen := State.regsTo_length s x
  have hx := x.isLt
  have hk : k.val < (s.regsTo x).length := by
    rw [hlen]
    exact Nat.lt_succ_of_le hk
  rw [read_storedMem (by omega) hk, State.regsTo_getElem]
  rfl

/-- Settles O34: each register's byte reads back (`read_stored_register`). -/
theorem bulkStoreWritesRegistersInOrder : Obligations.BulkStoreWritesRegistersInOrder := by
  intro x s hin
  exact ⟨advance_dataAddrs_inRange hin, _, exec_storeRegs_inRange hin, fun k hk => read_stored_register s hk,
    fun a ha => read_storedMem_other (by rwa [State.regsTo_length]), completes_setMem s _⟩

/-- Settles O35, by `loadRegsFrom_bytesAtIndex`. -/
theorem bulkLoadReadsRegistersInOrder : Obligations.BulkLoadReadsRegistersInOrder :=
  fun x s hin => ⟨_, exec_loadRegs_inRange hin, loadRegsFrom_bytesAtIndex s x,
    (unchangedBut_registers s.advance _).completes (by decide)⟩

/-- A bulk store that completed was in range, and this is the state it left. -/
theorem exec_storeRegs_completed {x : Reg} {s t : State} (hrun : s.Running) (h : exec (.storeRegs x) s = .next t)
    (ht : t.Running) :
    DataInRange s (x.val + 1) ∧ t = (s.advance.setMem (storedMem s (s.regsTo x))).tick := by
  have hin : DataInRange s (x.val + 1) := Classical.not_not.mp ((exec_running_iff hrun h).mp ht)
  exact ⟨hin, exec_next_unique h (exec_storeRegs_inRange hin)⟩

/-- Settles O36: the store leaves `I` and the parameters, so the load reads the addresses just written. -/
theorem loadAfterStoreRestoresRegisters : Obligations.LoadAfterStoreRestoresRegisters := by
  intro x s t w hrun hstore ht
  obtain ⟨hin, rfl⟩ := exec_storeRegs_completed hrun hstore ht
  refine ⟨_, exec_loadRegs_inRange hin, fun k => (loadRegsFrom_bytesAtIndex _ x k).trans ?_⟩
  split
  · next hk => exact read_stored_register s hk
  · rfl

/-- Settles O37: each access is out of range, and the address reported is the lowest one past memory. -/
theorem dataPastMemoryIsFatal : Obligations.DataPastMemoryIsFatal := by
  intro s hpolicy
  have hout (n : Nat) (hn : 0 < n) (hpast : 4096 < s.idx.toNat + n) : ¬DataInRange s n := by
    rintro (h | h | h)
    · omega
    · simp [hpolicy] at h
    · omega
  exact ⟨fun x h => exec_ldB_notInRange (hout 3 (by decide) (by omega)),
    fun x h => exec_storeRegs_notInRange (hout _ (by omega) (by omega)),
    fun x h => exec_loadRegs_notInRange (hout _ (by omega) (by omega)),
    fun x y n hn h => exec_drw_notInRange (hout _ hn (by omega))⟩

/-- Settles O38: the two bytes at the new `pc` are the first two stored. -/
theorem storedCodeIsFetchedNext : Obligations.StoredCodeIsFetchedNext := by
  intro x s t hrun hx hidx hpc hstore ht
  obtain ⟨-, rfl⟩ := exec_storeRegs_completed hrun hstore ht
  have hnext : (s.pc + 2).toNat = s.pc.toNat + 2 := by
    rw [BitVec.toNat_add]
    exact Nat.mod_eq_of_lt (by simp; omega)
  have hfirst : dataAddr s (0 : Reg).val = (s.pc + 2).toNat % 4096 := by rw [dataAddr, hidx]; rfl
  have hsecond : dataAddr s (1 : Reg).val = ((s.pc + 2).toNat + 1) % 4096 := by rw [dataAddr, hidx]; rfl
  have hbyte0 := read_stored_register s (x := x) (k := 0) (Fin.zero_le x)
  have hbyte1 := read_stored_register s (x := x) (k := 1) hx
  rw [hfirst] at hbyte0
  rw [hsecond] at hbyte1
  have hfetch : FetchInRange (s.advance.setMem (storedMem s (s.regsTo x))).tick :=
    .inr (show (s.pc + 2).toNat + 2 ≤ 4096 by omega)
  constructor
  · exact congrArg₂ (fun a b : Byte => a ++ b) hbyte0 hbyte1
  · rw [State.fetchBytes_inRange hfetch]
    exact congrArg₂ (fun a b => Except.ok [a, b]) hbyte0 hbyte1

end Sys2Proof.Machine
end

section
/-!
PROOFS, the draw (spec/43_draw.md R150 to R153): which cells one DRW inverts and what it leaves in `VF`, two equal draws,
and the two edge policies on a sprite inside the display.
-/

namespace Sys2Proof.Machine

/-! ### One draw -/

/-- The canvas of a DRW in this state, from the column and row registers' values. -/
def drawnCanvas (s : State) (vx vy : Byte) (n : Nat) : Canvas :=
  drawSprite s.cfg.drawEdge vx vy (bytesAtIndex s n) s.fb

/-- The sprite covers the cell, started where the two register values say. -/
def Covers (s : State) (vx vy : Byte) (n : Nat) (cx : Fin 64) (cy : Fin 32) : Prop :=
  SpriteCovers s (vx.toNat % 64) (vy.toNat % 32) n cx cy

theorem drawnCanvas_spec (s : State) (vx vy : Byte) {n : Nat} (hn : n ≤ 16) :
    (∀ cx cy, (Covers s vx vy n cx cy →
        Framebuffer.cell (drawnCanvas s vx vy n).fb cx cy = !Framebuffer.cell s.fb cx cy) ∧
      (¬Covers s vx vy n cx cy →
        Framebuffer.cell (drawnCanvas s vx vy n).fb cx cy = Framebuffer.cell s.fb cx cy)) ∧
    ((drawnCanvas s vx vy n).collided = true ↔
      ∃ cx cy, Covers s vx vy n cx cy ∧ Framebuffer.cell s.fb cx cy = true) := by
  obtain ⟨hcell, hcollided⟩ := Canvas.drawRows_spec s.cfg.drawEdge (startColumn vx) (bytesAtIndex s n) (startRow vy)
    (by simpa using hn) { fb := s.fb, collided := false }
  have hcovers (cx : Fin 64) (cy : Fin 32) :
      (∃ r c, SpriteOn s.cfg.drawEdge (startColumn vx) (startRow vy) (bytesAtIndex s n) r c cx cy) ↔
        Covers s vx vy n cx cy :=
    spriteOn_iff_covers s (startColumn vx) (startRow vy) n cx cy
  refine ⟨fun cx cy => ⟨fun h => (hcell cx cy).1 ((hcovers cx cy).mpr h),
    fun h => (hcell cx cy).2 (mt (hcovers cx cy).mp h)⟩, hcollided.trans ?_⟩
  simp only [Bool.false_eq_true, false_or, ← hcovers]
  constructor
  · rintro ⟨r, c, cx, cy, hon, hcell⟩
    exact ⟨cx, cy, ⟨r, c, hon⟩, hcell⟩
  · rintro ⟨cx, cy, ⟨r, c, hon⟩, hcell⟩
    exact ⟨r, c, cx, cy, hon, hcell⟩

/-- The registers after a draw: `VF` the collision, all others kept. -/
theorem putCanvas_registers (s : State) (d : Canvas) (r : Reg) :
    (s.advance.putCanvas d).tick.v[r] = if r = 15 then flagByte d.collided else s.v[r] :=
  getElem_set_reg s.v vf r (flagByte d.collided)

/-- Settles O39: the canvas by `drawnCanvas_spec`, the registers by `putCanvas_registers`. -/
theorem drawInvertsTheCoveredCells : Obligations.DrawInvertsTheCoveredCells := by
  intro x y n s hin
  obtain ⟨hcells, hcollided⟩ := drawnCanvas_spec s s.v[x] s.v[y] (Nat.le_of_lt n.isLt)
  have hflag := putCanvas_registers s (drawnCanvas s s.v[x] s.v[y] n.val) 15
  rw [if_pos rfl] at hflag
  refine ⟨_, exec_drw_inRange hin, hcells, fun hon => hflag.trans ?_, fun hoff => hflag.trans ?_, fun r hr => ?_,
    (unchangedBut_putCanvas _ _).completes (by decide)⟩
  · rw [hcollided.mpr hon]
    rfl
  · rw [Bool.eq_false_iff.mpr (mt hcollided.mp hoff)]
    rfl
  · exact (putCanvas_registers s _ r).trans (if_neg (by simpa using hr))

/-! ### Two equal draws -/

/-- What a sprite covers depends on memory, `I` and the edge policy alone. -/
theorem covers_congr {s t : State} (hmem : ∀ a, Mem.read t.mem a = Mem.read s.mem a) (hidx : t.idx = s.idx)
    (hcfg : t.cfg = s.cfg) (x0 y0 n : Nat) (cx : Fin 64) (cy : Fin 32) :
    SpriteCovers t x0 y0 n cx cy ↔ SpriteCovers s x0 y0 n cx cy := by
  simp only [SpriteCovers, dataAddr, hmem, hidx, hcfg]

/-- Settles O40: the second draw covers the cells of the first, and inverts them back. -/
theorem drawingTwiceRestoresTheFramebuffer : Obligations.DrawingTwiceRestoresTheFramebuffer := by
  intro x y n s t u hx hy hin hfirst hsecond
  obtain ⟨t', hexec, hcells, hon, hoff, hregs, hframe⟩ := drawInvertsTheCoveredCells x y n s hin
  obtain rfl : t' = t := exec_next_unique hexec hfirst
  obtain ⟨-, -, hkept⟩ := hframe
  have hmem : ∀ a, Mem.read t'.mem a = Mem.read s.mem a := hkept .mem (by decide)
  have hidx : t'.idx = s.idx := hkept .idx (by decide)
  have hcfg : t'.cfg = s.cfg := hkept .cfg (by decide)
  have hin' : DataInRange t' n.val := by
    unfold DataInRange
    rw [hcfg, hidx]
    exact hin
  obtain ⟨u', hexec', hcells', hon', -⟩ := drawInvertsTheCoveredCells x y n t' hin'
  obtain rfl : u' = u := exec_next_unique hexec' hsecond
  rw [hregs x (by simpa using hx), hregs y (by simpa using hy)] at hcells' hon'
  simp only [covers_congr hmem hidx hcfg] at hcells' hon'
  refine ⟨fun cx cy => ?_, fun hblank => ⟨hoff ?_, ?_⟩⟩
  · by_cases hcov : SpriteCovers s ((s.v[x]).toNat % 64) ((s.v[y]).toNat % 32) n.val cx cy
    · rw [(hcells' cx cy).1 hcov, (hcells cx cy).1 hcov, Bool.not_not]
    · rw [(hcells' cx cy).2 hcov, (hcells cx cy).2 hcov]
  · rintro ⟨cx, cy, -, hcell⟩
    rw [hblank cx cy] at hcell
    contradiction
  · rintro ⟨cx, cy, hcov⟩
    refine hon' ⟨cx, cy, hcov, ?_⟩
    rw [(hcells cx cy).1 hcov, hblank cx cy]
    rfl

/-! ### The two edge policies -/

/-- Inside the display no pixel is past an edge (R151). -/
theorem place_inside {xx yy : Nat} (hx : xx < 64) (hy : yy < 32) : place .clip xx yy = place .wrap xx yy := by
  simp [place, hx, hy, Nat.mod_eq_of_lt]

theorem drawColumns_inside (b : Byte) {x0 yy : Nat} (hx : x0 ≤ 56) (hy : yy < 32) (n c : Nat) (hc : c + n ≤ 8)
    (d : Canvas) : Canvas.drawColumns .clip b x0 yy c n d = Canvas.drawColumns .wrap b x0 yy c n d := by
  induction n generalizing c d with
  | zero => rfl
  | succ n ih =>
    have hplot : Canvas.plot .clip (x0 + c) yy d = Canvas.plot .wrap (x0 + c) yy d := by
      unfold Canvas.plot
      rw [place_inside (by omega) hy]
    rw [Canvas.drawColumns, Canvas.drawColumns, hplot, ih (c + 1) (by omega)]

theorem drawRows_inside {x0 : Nat} (hx : x0 ≤ 56) (rows : List Byte) (yy : Nat) (hy : yy + rows.length ≤ 32)
    (d : Canvas) : Canvas.drawRows .clip x0 yy rows d = Canvas.drawRows .wrap x0 yy rows d := by
  induction rows generalizing yy d with
  | nil => rfl
  | cons b rows ih =>
    rw [List.length_cons] at hy
    rw [Canvas.drawRows, Canvas.drawRows, drawColumns_inside b hx (by omega) 8 0 (by omega), ih (yy + 1) (by omega)]

theorem drawSprite_inside {vx vy : Byte} {rows : List Byte} (hx : vx.toNat % 64 ≤ 56)
    (hy : vy.toNat % 32 + rows.length ≤ 32) (f : Framebuffer) :
    drawSprite .clip vx vy rows f = drawSprite .wrap vx vy rows f :=
  drawRows_inside hx rows _ hy _

/-- The same state with an edge policy. -/
def State.withEdge (s : State) (edge : DrawEdge) : State := { s with cfg := { s.cfg with drawEdge := edge } }

/-- The edge policy reaches a draw through the canvas alone. -/
theorem exec_drw_withEdge_inRange {x y : Reg} {n : Fin 16} {s : State} (edge : DrawEdge) (h : DataInRange s n.val) :
    exec (.drw x y n) (s.withEdge edge) = .next ((s.advance.putCanvas
      (drawSprite edge (s.reg x) (s.reg y) (bytesAtIndex s n.val) s.fb)).tick.withEdge edge) :=
  exec_drw_inRange (s := s.withEdge edge) h

theorem exec_drw_withEdge_notInRange {x y : Reg} {n : Fin 16} {s : State} (edge : DrawEdge)
    (h : ¬DataInRange s n.val) : exec (.drw x y n) (s.withEdge edge) =
      .next ((s.takeFault (.addressOutOfRange (max 4096 s.idx.toNat))).withEdge edge) :=
  exec_drw_notInRange (s := s.withEdge edge) h

/-- One state under two edge policies differs in the parameters alone. -/
theorem keptBut_withEdge (s : State) (edge edge' : DrawEdge) :
    KeptBut [.cfg] (s.withEdge edge) (s.withEdge edge') := by
  intro p hp
  cases p with
  | cfg => simp at hp
  | _ => simp [Part.Same, State.withEdge]

/-- Settles O41: in range both policies draw one canvas (`drawSprite_inside`), out of range both take one fatal
condition. -/
theorem edgePoliciesAgreeInsideTheDisplay : Obligations.EdgePoliciesAgreeInsideTheDisplay := by
  intro x y n s t u hx hy hwrap hclip
  change exec (.drw x y n) (s.withEdge .wrap) = .next t at hwrap
  change exec (.drw x y n) (s.withEdge .clip) = .next u at hclip
  by_cases hin : DataInRange s n.val
  · have hsame : drawSprite .clip (s.reg x) (s.reg y) (bytesAtIndex s n.val) s.fb =
        drawSprite .wrap (s.reg x) (s.reg y) (bytesAtIndex s n.val) s.fb :=
      drawSprite_inside hx (by rwa [bytesAtIndex_length]) s.fb
    rw [exec_next_unique hwrap (exec_drw_withEdge_inRange .wrap hin),
      exec_next_unique hclip (exec_drw_withEdge_inRange .clip hin), hsame]
    exact keptBut_withEdge _ _ _
  · rw [exec_next_unique hwrap (exec_drw_withEdge_notInRange .wrap hin),
      exec_next_unique hclip (exec_drw_withEdge_notInRange .clip hin)]
    exact keptBut_withEdge _ _ _

end Sys2Proof.Machine
end
